-- ==== Sys2Proof/Word.lean ====
section
/-! DEFINITION. The two word types of the CORE: the 8-bit byte of a register or a memory
cell and the 16-bit address of the instruction pointer (spec/00_scope.md R10, R20, R21).
Every value is unsigned. -/

namespace Sys2Proof

/-- A byte: a register's contents, a memory cell, an opcode or operand byte (R10 `XLEN`). -/
abbrev Byte := BitVec 8

/-- An address or instruction-pointer value (R10 `ALEN`); arithmetic on it wraps modulo 65536. -/
abbrev Addr := BitVec 16

end Sys2Proof
end

