-- ==== Sys2Proof/Machine/Bits.lean ====
section
/-! DEFINITION. Bit-field and byte-order helpers (spec/00_scope.md R20; spec/20_memory.md R212). -/

namespace Sys2Proof

/-- The low byte `w[7:0]` of a 16-bit value (R20). -/
def loByte (w : Addr) : Byte := w.extractLsb' 0 8

/-- The high byte `w[15:8]` of a 16-bit value (R20). -/
def hiByte (w : Addr) : Byte := w.extractLsb' 8 8

/-- `hi ++ lo`: the 16-bit value with `hi` in the more significant position (R20). -/
def word16 (hi lo : Byte) : Addr := hi ++ lo

/-- Bits `lo+1 : lo` of an opcode byte, as a number 0..3 (R331 reads `b[1:0]` and `b[3:2]`). -/
def twoBits (b : Byte) (lo : Nat) : Nat := (b.extractLsb' lo 2).toNat

/-- Bits `b[7:4]` of an opcode byte, as a number 0..15 (R331). -/
def topNibble (b : Byte) : Nat := (b.extractLsb' 4 4).toNat

end Sys2Proof
end

