-- ==== Sys2Proof/Config.lean ====
section
/-! DEFINITION. The names the parameters of the CORE are written in, and the parameters
themselves as a record (spec/00_scope.md R10, R11; spec/30_encoding.md R301, R302, R320, R321;
spec/44_compare.md R481). The reference VALUES of the parameters are definitions of
Decode.lean and Machine/. -/

namespace Sys2Proof

/-- The four general registers, indices 0..3 (R102). -/
inductive Reg where
  | A | B | C | D
  deriving DecidableEq, Repr

/-- The five register-pair operations (R301 row 5). -/
inductive AluOp where
  | add | sub | and | xor | or
  deriving DecidableEq, Repr

/-- The three comparison kinds (R480). -/
inductive CmpKind where
  | lt | gt | eq
  deriving DecidableEq, Repr

/-- The two rotate directions (R500). -/
inductive RotDir where
  | left | right
  deriving DecidableEq, Repr

/-- Instruction formats: the opcode byte alone, with one operand byte, with a 16-bit operand (R302). -/
inductive Format where
  | f0 | f8 | f16
  deriving DecidableEq, Repr

/-- The closed variant set of R301. An ALU variant is named for EVERY register pair, the pairs
with equal registers included, because R440 defines its meaning for any pair; which pairs an
opcode map exposes is the parameter `Params.aluPairs` (R321). -/
inductive Variant where
  | nop
  | ld (r : Reg)
  | st (r : Reg)
  | setf
  | clrf
  | alu (op : AluOp) (d s : Reg)
  | jmp
  | jr
  | wip
  | br
  | cmp (kind : CmpKind) (r : Reg)
  | rot (dir : RotDir) (r : Reg)
  | out
  | halt
  deriving DecidableEq, Repr

/-- The two presets of the compare parameters (R481). -/
inductive CmpPreset where
  | intended | observed
  deriving DecidableEq, Repr

/-- The parameters of the CORE (R10). `assign` is the explicit part of `OPCODE_MAP`: a byte it
gives no variant is "not explicitly assigned" and decodes to NOP (R320 item 4). -/
structure Params where
  assign : Byte → Option Variant
  aluPairs : AluOp → Reg → Reg → Bool
  cmpSel : CmpKind → Reg → Reg
  cmpRel : CmpKind → Byte → Byte → Bool

end Sys2Proof
end

