-- ==== Sys2Proof/Syntax.lean ====
section
/-! DEFINITION. The instructions: one constructor per mnemonic of spec/opcode_table.json
(spec/30_encoding.md R301, R302, R330, R350). The registers of an instruction are part of its
constructor, because they "come only from the opcode" (R104); an operand has exactly the width
its format gives it, so that no value of this type is out of range. The 160 rows of the table
named NOP are the one constructor `nop` (R340: an unassigned byte "behaves exactly like NOP"). -/

namespace Sys2Proof

/-- The instructions of BA-REF. `a` is a 16-bit address, `d` an unsigned displacement byte, `n` a
rotate count byte (R312). -/
inductive Instr where
  | nop
  | setf
  | clrf
  | jmp (a : Addr)
  | ldA (a : Addr)
  | ldB (a : Addr)
  | ldC (a : Addr)
  | ldD (a : Addr)
  | stA (a : Addr)
  | stB (a : Addr)
  | stC (a : Addr)
  | stD (a : Addr)
  | jr (d : Byte)
  | wip (a : Addr)
  | br (d : Byte)
  | out (a : Addr)
  | cmpltA (a : Addr)
  | cmpltB (a : Addr)
  | cmpltC (a : Addr)
  | cmpltD (a : Addr)
  | cmpgtA (a : Addr)
  | cmpgtB (a : Addr)
  | cmpgtC (a : Addr)
  | cmpgtD (a : Addr)
  | cmpeqA (a : Addr)
  | cmpeqB (a : Addr)
  | cmpeqC (a : Addr)
  | cmpeqD (a : Addr)
  | rolA (n : Byte)
  | rolB (n : Byte)
  | rolC (n : Byte)
  | rolD (n : Byte)
  | rorA (n : Byte)
  | rorB (n : Byte)
  | rorC (n : Byte)
  | rorD (n : Byte)
  | addAB
  | addAC
  | addAD
  | addBA
  | addBC
  | addBD
  | addCA
  | addCB
  | addCD
  | addDA
  | addDB
  | addDC
  | subAB
  | subAC
  | subAD
  | subBA
  | subBC
  | subBD
  | subCA
  | subCB
  | subCD
  | subDA
  | subDB
  | subDC
  | andAB
  | andAC
  | andAD
  | andBA
  | andBC
  | andBD
  | andCA
  | andCB
  | andCD
  | andDA
  | andDB
  | andDC
  | xorAB
  | xorAC
  | xorAD
  | xorBA
  | xorBC
  | xorBD
  | xorCA
  | xorCB
  | xorCD
  | xorDA
  | xorDB
  | xorDC
  | orAB
  | orAC
  | orAD
  | orBA
  | orBC
  | orBD
  | orCA
  | orCB
  | orCD
  | orDA
  | orDB
  | orDC
  | halt
  deriving DecidableEq, Repr

end Sys2Proof
end

