-- ==== Sys2Proof/WellFormed.lean ====
section
/-! DEFINITION. What a well-formed parameter set, variant and memory image are
(spec/30_encoding.md R320, R321; spec/70_reset_and_hazards.md R702).

A term of `Instr` needs no check: its registers are fixed by its constructor ("never by runtime
validation", R104) and its operands have exactly the widths of its format, every value of which
is legal (R341). The checks are therefore on what can be ill-formed: an opcode map, the register
pairs it exposes, and the length of an image. -/

namespace Sys2Proof

/-- `OPCODE_MAP` (R320): total, and NOP on every byte that is not explicitly assigned (item 4). -/
def Params.opcodeMap (P : Params) (b : Byte) : Variant :=
  (P.assign b).getD .nop

/-- Whether a variant is one of those the pair sets expose: an ALU variant only for a pair of
`ALU_PAIRS(op)` (R320 item 5, R321), every other variant always (R301). -/
def Variant.exposed (pairs : AluOp → Reg → Reg → Bool) : Variant → Bool
  | .alu op d s => pairs op d s
  | _ => true

/-- R320 item 2: 0xFF decodes to HALT, and no other byte does. -/
def Params.HaltIsTopByte (P : Params) : Prop :=
  ∀ b, P.opcodeMap b = .halt ↔ b = 0xFF

/-- R320 item 3: every exposed variant is the image of some byte. -/
def Params.EveryVariantBound (P : Params) : Prop :=
  ∀ v : Variant, v.exposed P.aluPairs → ∃ b, P.opcodeMap b = v

/-- R320 item 5: no byte decodes to an ALU variant outside `ALU_PAIRS`. -/
def Params.OnlyExposedBound (P : Params) : Prop :=
  ∀ b, (P.opcodeMap b).exposed P.aluPairs

/-- R321, first constraint: not all 16 pairs are exposed, for any operation. -/
def Params.PairsProper (P : Params) : Prop :=
  ∀ op, ∃ d s, P.aluPairs op d s = false

/-- R321, third constraint: `ADD A,B` is exposed. -/
def Params.AddABExposed (P : Params) : Prop :=
  P.aluPairs .add .A .B = true

/-- An admissible parameter set (R320, R321). Items 1 and 4 of R320 hold by the form of
`Params.opcodeMap`. -/
structure Params.Admissible (P : Params) : Prop where
  haltIsTopByte : P.HaltIsTopByte
  everyVariantBound : P.EveryVariantBound
  onlyExposedBound : P.OnlyExposedBound
  pairsProper : P.PairsProper
  addABExposed : P.AddABExposed

/-- A memory image is "a single contiguous block of exactly 65536 bytes" (R702). -/
def wellFormedImage (image : List Byte) : Bool :=
  image.length == 65536

end Sys2Proof
end

