-- ==== Sys2Proof/Decode.lean ====
section
/-! DEFINITION. Decoding and encoding under BA-REF, the spec's reference opcode map
(spec/30_encoding.md R300 to R303, R311, R312, R330, R331, R340, R341).

The decoder is written from the bit fields of R331 and the encoder from the byte table of R330;
that they agree is an obligation. Decoding never rejects an opcode byte (R340); the one
thing it rejects, by name, is a list too short for the instruction its first byte names.

DESIGN CHOICE (log 1): BA-REF is the spec's reference value of `OPCODE_MAP`, not the original
repository's; Machine/Parametric.lean takes the map as an argument. -/

namespace Sys2Proof

/-- The number of operand bytes of a format (R302, R303). -/
def Format.operands : Format → Nat
  | .f0 => 0
  | .f8 => 1
  | .f16 => 2

/-- The format of a variant (R302). -/
def Variant.format : Variant → Format
  | .nop => .f0
  | .ld _ => .f16
  | .st _ => .f16
  | .setf => .f0
  | .clrf => .f0
  | .alu _ _ _ => .f0
  | .jmp => .f16
  | .jr => .f8
  | .wip => .f16
  | .br => .f8
  | .cmp _ _ => .f16
  | .rot _ _ => .f8
  | .out => .f16
  | .halt => .f0

/-- The variant of R301 that an instruction is, without its operand. -/
def Instr.variant : Instr → Variant
  | .nop => .nop
  | .setf => .setf
  | .clrf => .clrf
  | .jmp _ => .jmp
  | .ldA _ => .ld .A
  | .ldB _ => .ld .B
  | .ldC _ => .ld .C
  | .ldD _ => .ld .D
  | .stA _ => .st .A
  | .stB _ => .st .B
  | .stC _ => .st .C
  | .stD _ => .st .D
  | .jr _ => .jr
  | .wip _ => .wip
  | .br _ => .br
  | .out _ => .out
  | .cmpltA _ => .cmp .lt .A
  | .cmpltB _ => .cmp .lt .B
  | .cmpltC _ => .cmp .lt .C
  | .cmpltD _ => .cmp .lt .D
  | .cmpgtA _ => .cmp .gt .A
  | .cmpgtB _ => .cmp .gt .B
  | .cmpgtC _ => .cmp .gt .C
  | .cmpgtD _ => .cmp .gt .D
  | .cmpeqA _ => .cmp .eq .A
  | .cmpeqB _ => .cmp .eq .B
  | .cmpeqC _ => .cmp .eq .C
  | .cmpeqD _ => .cmp .eq .D
  | .rolA _ => .rot .left .A
  | .rolB _ => .rot .left .B
  | .rolC _ => .rot .left .C
  | .rolD _ => .rot .left .D
  | .rorA _ => .rot .right .A
  | .rorB _ => .rot .right .B
  | .rorC _ => .rot .right .C
  | .rorD _ => .rot .right .D
  | .addAB => .alu .add .A .B
  | .addAC => .alu .add .A .C
  | .addAD => .alu .add .A .D
  | .addBA => .alu .add .B .A
  | .addBC => .alu .add .B .C
  | .addBD => .alu .add .B .D
  | .addCA => .alu .add .C .A
  | .addCB => .alu .add .C .B
  | .addCD => .alu .add .C .D
  | .addDA => .alu .add .D .A
  | .addDB => .alu .add .D .B
  | .addDC => .alu .add .D .C
  | .subAB => .alu .sub .A .B
  | .subAC => .alu .sub .A .C
  | .subAD => .alu .sub .A .D
  | .subBA => .alu .sub .B .A
  | .subBC => .alu .sub .B .C
  | .subBD => .alu .sub .B .D
  | .subCA => .alu .sub .C .A
  | .subCB => .alu .sub .C .B
  | .subCD => .alu .sub .C .D
  | .subDA => .alu .sub .D .A
  | .subDB => .alu .sub .D .B
  | .subDC => .alu .sub .D .C
  | .andAB => .alu .and .A .B
  | .andAC => .alu .and .A .C
  | .andAD => .alu .and .A .D
  | .andBA => .alu .and .B .A
  | .andBC => .alu .and .B .C
  | .andBD => .alu .and .B .D
  | .andCA => .alu .and .C .A
  | .andCB => .alu .and .C .B
  | .andCD => .alu .and .C .D
  | .andDA => .alu .and .D .A
  | .andDB => .alu .and .D .B
  | .andDC => .alu .and .D .C
  | .xorAB => .alu .xor .A .B
  | .xorAC => .alu .xor .A .C
  | .xorAD => .alu .xor .A .D
  | .xorBA => .alu .xor .B .A
  | .xorBC => .alu .xor .B .C
  | .xorBD => .alu .xor .B .D
  | .xorCA => .alu .xor .C .A
  | .xorCB => .alu .xor .C .B
  | .xorCD => .alu .xor .C .D
  | .xorDA => .alu .xor .D .A
  | .xorDB => .alu .xor .D .B
  | .xorDC => .alu .xor .D .C
  | .orAB => .alu .or .A .B
  | .orAC => .alu .or .A .C
  | .orAD => .alu .or .A .D
  | .orBA => .alu .or .B .A
  | .orBC => .alu .or .B .C
  | .orBD => .alu .or .B .D
  | .orCA => .alu .or .C .A
  | .orCB => .alu .or .C .B
  | .orCD => .alu .or .C .D
  | .orDA => .alu .or .D .A
  | .orDB => .alu .or .D .B
  | .orDC => .alu .or .D .C
  | .halt => .halt

/-- `LD r, a16` for a register r. -/
def Instr.ld (r : Reg) (a : Addr) : Instr :=
  match r with
  | .A => .ldA a
  | .B => .ldB a
  | .C => .ldC a
  | .D => .ldD a

/-- `ST r, a16` for a register r. -/
def Instr.st (r : Reg) (a : Addr) : Instr :=
  match r with
  | .A => .stA a
  | .B => .stB a
  | .C => .stC a
  | .D => .stD a

/-- The compare instruction of a kind and a register. -/
def Instr.cmp (kind : CmpKind) (r : Reg) (a : Addr) : Instr :=
  match kind, r with
  | .lt, .A => .cmpltA a
  | .lt, .B => .cmpltB a
  | .lt, .C => .cmpltC a
  | .lt, .D => .cmpltD a
  | .gt, .A => .cmpgtA a
  | .gt, .B => .cmpgtB a
  | .gt, .C => .cmpgtC a
  | .gt, .D => .cmpgtD a
  | .eq, .A => .cmpeqA a
  | .eq, .B => .cmpeqB a
  | .eq, .C => .cmpeqC a
  | .eq, .D => .cmpeqD a

/-- The rotate instruction of a direction and a register. -/
def Instr.rot (dir : RotDir) (r : Reg) (n : Byte) : Instr :=
  match dir, r with
  | .left, .A => .rolA n
  | .left, .B => .rolB n
  | .left, .C => .rolC n
  | .left, .D => .rolD n
  | .right, .A => .rorA n
  | .right, .B => .rorB n
  | .right, .C => .rorC n
  | .right, .D => .rorD n

/-- What BA-REF binds to the ALU slot of `op`, `d` and `s`: "that operation if d ≠ s and ... NOP
if d = s" (R331). -/
def Instr.alu (op : AluOp) (d s : Reg) : Instr :=
  match op, d, s with
  | .add, .A, .B => .addAB
  | .add, .A, .C => .addAC
  | .add, .A, .D => .addAD
  | .add, .B, .A => .addBA
  | .add, .B, .C => .addBC
  | .add, .B, .D => .addBD
  | .add, .C, .A => .addCA
  | .add, .C, .B => .addCB
  | .add, .C, .D => .addCD
  | .add, .D, .A => .addDA
  | .add, .D, .B => .addDB
  | .add, .D, .C => .addDC
  | .sub, .A, .B => .subAB
  | .sub, .A, .C => .subAC
  | .sub, .A, .D => .subAD
  | .sub, .B, .A => .subBA
  | .sub, .B, .C => .subBC
  | .sub, .B, .D => .subBD
  | .sub, .C, .A => .subCA
  | .sub, .C, .B => .subCB
  | .sub, .C, .D => .subCD
  | .sub, .D, .A => .subDA
  | .sub, .D, .B => .subDB
  | .sub, .D, .C => .subDC
  | .and, .A, .B => .andAB
  | .and, .A, .C => .andAC
  | .and, .A, .D => .andAD
  | .and, .B, .A => .andBA
  | .and, .B, .C => .andBC
  | .and, .B, .D => .andBD
  | .and, .C, .A => .andCA
  | .and, .C, .B => .andCB
  | .and, .C, .D => .andCD
  | .and, .D, .A => .andDA
  | .and, .D, .B => .andDB
  | .and, .D, .C => .andDC
  | .xor, .A, .B => .xorAB
  | .xor, .A, .C => .xorAC
  | .xor, .A, .D => .xorAD
  | .xor, .B, .A => .xorBA
  | .xor, .B, .C => .xorBC
  | .xor, .B, .D => .xorBD
  | .xor, .C, .A => .xorCA
  | .xor, .C, .B => .xorCB
  | .xor, .C, .D => .xorCD
  | .xor, .D, .A => .xorDA
  | .xor, .D, .B => .xorDB
  | .xor, .D, .C => .xorDC
  | .or, .A, .B => .orAB
  | .or, .A, .C => .orAC
  | .or, .A, .D => .orAD
  | .or, .B, .A => .orBA
  | .or, .B, .C => .orBC
  | .or, .B, .D => .orBD
  | .or, .C, .A => .orCA
  | .or, .C, .B => .orCB
  | .or, .C, .D => .orCD
  | .or, .D, .A => .orDA
  | .or, .D, .B => .orDB
  | .or, .D, .C => .orDC
  | _, .A, .A => .nop
  | _, .B, .B => .nop
  | _, .C, .C => .nop
  | _, .D, .D => .nop

/-- The register with index `k`, A = 0 to D = 3 (R102). -/
def Reg.ofIndex : Nat → Reg
  | 0 => .A
  | 1 => .B
  | 2 => .C
  | _ => .D

/-- The instruction with opcode byte `b` and operand bytes `lo`, `hi` (a format that has fewer
operand bytes ignores the rest), read from the bit fields of `b` (R331; the bytes 0x00 to 0x0F,
which R331 leaves to R330, likewise). Total: a byte of no row is NOP (R340). -/
def instrOf (b lo hi : Byte) : Instr :=
  match topNibble b with
  | 0x0 =>
    match twoBits b 2, twoBits b 0 with
    | 0, 0 => .nop
    | 0, 1 => .setf
    | 0, 2 => .clrf
    | 0, _ => .jmp (word16 hi lo)
    | 1, r => .ld (.ofIndex r) (word16 hi lo)
    | 2, r => .st (.ofIndex r) (word16 hi lo)
    | _, 0 => .jr lo
    | _, 1 => .wip (word16 hi lo)
    | _, 2 => .br lo
    | _, _ => .out (word16 hi lo)
  | 0x1 =>
    match twoBits b 2 with
    | 0 => .cmp .lt (.ofIndex (twoBits b 0)) (word16 hi lo)
    | 1 => .cmp .gt (.ofIndex (twoBits b 0)) (word16 hi lo)
    | 2 => .cmp .eq (.ofIndex (twoBits b 0)) (word16 hi lo)
    | _ => .rot .left (.ofIndex (twoBits b 0)) lo
  | 0x2 =>
    match twoBits b 2 with
    | 0 => .rot .right (.ofIndex (twoBits b 0)) lo
    | _ => .nop
  | 0x3 => .alu .add (.ofIndex (twoBits b 2)) (.ofIndex (twoBits b 0))
  | 0x4 => .alu .sub (.ofIndex (twoBits b 2)) (.ofIndex (twoBits b 0))
  | 0x5 => .alu .and (.ofIndex (twoBits b 2)) (.ofIndex (twoBits b 0))
  | 0x6 => .alu .xor (.ofIndex (twoBits b 2)) (.ofIndex (twoBits b 0))
  | 0x7 => .alu .or (.ofIndex (twoBits b 2)) (.ofIndex (twoBits b 0))
  | 0xF => if b = 0xFF then .halt else .nop
  | _ => .nop

/-- `OPCODE_MAP` under BA-REF: the variant of an opcode byte (R330). -/
def variantOf (b : Byte) : Variant := (instrOf b 0 0).variant

/-- The format of an opcode byte (R303). -/
def formatOf (b : Byte) : Format := (variantOf b).format

/-- The length in bytes of the instruction an opcode byte begins (R303). -/
def lengthOf (b : Byte) : Nat := 1 + (formatOf b).operands

/-- Why a byte list is not decoded: the only two ways, both a list that ends too soon. -/
inductive DecodeError where
  /-- There is no opcode byte. -/
  | noOpcode
  /-- The list ends before the operand bytes of this opcode byte. -/
  | missingOperand (opcode : Byte)
  deriving DecidableEq, Repr

/-- Decode the instruction at the head of a byte list: the instruction and the bytes after it
(R300, R303, R311). -/
def decode : List Byte → Except DecodeError (Instr × List Byte)
  | [] => .error .noOpcode
  | b :: rest =>
    match formatOf b, rest with
    | .f0, rest => .ok (instrOf b 0 0, rest)
    | .f8, lo :: rest => .ok (instrOf b lo 0, rest)
    | .f16, lo :: hi :: rest => .ok (instrOf b lo hi, rest)
    | _, _ => .error (.missingOperand b)

/-- The bytes of an instruction, in address order, from the table of R330 (and R302 for the
operand bytes, least-significant first). NOP is written as its explicit byte 0x00. -/
def encode : Instr → List Byte
  | .nop => [0x00]
  | .setf => [0x01]
  | .clrf => [0x02]
  | .jmp a => [0x03, loByte a, hiByte a]
  | .ldA a => [0x04, loByte a, hiByte a]
  | .ldB a => [0x05, loByte a, hiByte a]
  | .ldC a => [0x06, loByte a, hiByte a]
  | .ldD a => [0x07, loByte a, hiByte a]
  | .stA a => [0x08, loByte a, hiByte a]
  | .stB a => [0x09, loByte a, hiByte a]
  | .stC a => [0x0A, loByte a, hiByte a]
  | .stD a => [0x0B, loByte a, hiByte a]
  | .jr d => [0x0C, d]
  | .wip a => [0x0D, loByte a, hiByte a]
  | .br d => [0x0E, d]
  | .out a => [0x0F, loByte a, hiByte a]
  | .cmpltA a => [0x10, loByte a, hiByte a]
  | .cmpltB a => [0x11, loByte a, hiByte a]
  | .cmpltC a => [0x12, loByte a, hiByte a]
  | .cmpltD a => [0x13, loByte a, hiByte a]
  | .cmpgtA a => [0x14, loByte a, hiByte a]
  | .cmpgtB a => [0x15, loByte a, hiByte a]
  | .cmpgtC a => [0x16, loByte a, hiByte a]
  | .cmpgtD a => [0x17, loByte a, hiByte a]
  | .cmpeqA a => [0x18, loByte a, hiByte a]
  | .cmpeqB a => [0x19, loByte a, hiByte a]
  | .cmpeqC a => [0x1A, loByte a, hiByte a]
  | .cmpeqD a => [0x1B, loByte a, hiByte a]
  | .rolA n => [0x1C, n]
  | .rolB n => [0x1D, n]
  | .rolC n => [0x1E, n]
  | .rolD n => [0x1F, n]
  | .rorA n => [0x20, n]
  | .rorB n => [0x21, n]
  | .rorC n => [0x22, n]
  | .rorD n => [0x23, n]
  | .addAB => [0x31]
  | .addAC => [0x32]
  | .addAD => [0x33]
  | .addBA => [0x34]
  | .addBC => [0x36]
  | .addBD => [0x37]
  | .addCA => [0x38]
  | .addCB => [0x39]
  | .addCD => [0x3B]
  | .addDA => [0x3C]
  | .addDB => [0x3D]
  | .addDC => [0x3E]
  | .subAB => [0x41]
  | .subAC => [0x42]
  | .subAD => [0x43]
  | .subBA => [0x44]
  | .subBC => [0x46]
  | .subBD => [0x47]
  | .subCA => [0x48]
  | .subCB => [0x49]
  | .subCD => [0x4B]
  | .subDA => [0x4C]
  | .subDB => [0x4D]
  | .subDC => [0x4E]
  | .andAB => [0x51]
  | .andAC => [0x52]
  | .andAD => [0x53]
  | .andBA => [0x54]
  | .andBC => [0x56]
  | .andBD => [0x57]
  | .andCA => [0x58]
  | .andCB => [0x59]
  | .andCD => [0x5B]
  | .andDA => [0x5C]
  | .andDB => [0x5D]
  | .andDC => [0x5E]
  | .xorAB => [0x61]
  | .xorAC => [0x62]
  | .xorAD => [0x63]
  | .xorBA => [0x64]
  | .xorBC => [0x66]
  | .xorBD => [0x67]
  | .xorCA => [0x68]
  | .xorCB => [0x69]
  | .xorCD => [0x6B]
  | .xorDA => [0x6C]
  | .xorDB => [0x6D]
  | .xorDC => [0x6E]
  | .orAB => [0x71]
  | .orAC => [0x72]
  | .orAD => [0x73]
  | .orBA => [0x74]
  | .orBC => [0x76]
  | .orBD => [0x77]
  | .orCA => [0x78]
  | .orCB => [0x79]
  | .orCD => [0x7B]
  | .orDA => [0x7C]
  | .orDB => [0x7D]
  | .orDC => [0x7E]
  | .halt => [0xFF]

/-- The instruction a table word names: the three bytes of `w` (bit 0 least significant, bits
above `nbits` zero), the first at the lowest address, given to `decode`. -/
def decodeTableWord (nbits w : Nat) : Option Instr :=
  let v := w % 2 ^ nbits
  match decode [BitVec.ofNat 8 v, BitVec.ofNat 8 (v / 256), BitVec.ofNat 8 (v / 65536)] with
  | .ok (i, _) => some i
  | .error _ => none

end Sys2Proof
end

