-- ==== Sys2Proof/Machine/State.lean ====
section
/-! DEFINITION. The state of the machine as plain data, the reasons a step can stop, and the state
after reset (spec/10_state.md R100 to R150).

`MachineState` is the CORE's whole architectural state, exactly five components (R100). What R101
says is not CORE state, the sink's and the observer's side of a step, is a record of its own,
`Surroundings`. `State`, what the host's step takes and gives, is the two beside each other
(DESIGN CHOICE, log 13, 14). `coreStep` of Machine/Relation.lean is the step over `MachineState`
alone, with the sink's answer as its parameter and the emitted byte as what is observed. -/

namespace Sys2Proof.Machine

/-- The register file: four 8-bit registers, none hardwired (R102, R103). -/
structure Regs where
  a : Byte
  b : Byte
  c : Byte
  d : Byte
  deriving DecidableEq, Repr

/-- Memory: the cells that differ from 0x00, at strictly rising addresses below 65536
(`Memory.wf`). An unlisted address reads as 0x00, the reset contents of R150. -/
abbrev Memory := List Host.Cell

/-- What the observer is given after a completed step: registers, pointer, flag and halt flag
after it, the opcode byte and the variant it decodes to (R143; the spec's decision D14). -/
structure ObsRecord where
  regs : Regs
  ip : Addr
  flag : Bool
  halted : Bool
  opcode : Byte
  variant : Variant
  deriving DecidableEq, Repr

/-- The state of the machine: "exactly the following five components" (R100). -/
structure MachineState where
  /-- `x[0..3]`, the general registers (R102). -/
  regs : Regs
  /-- The instruction pointer (R110). -/
  ip : Addr
  /-- The 65536 bytes of memory (R135). -/
  mem : Memory
  /-- The condition flag F (R120). -/
  flag : Bool
  /-- The halt flag H (R130). -/
  halted : Bool
  deriving DecidableEq, Repr

/-- What stands outside the machine and a step deals with (R101): no CORE state. No instruction
reads it, but for OUT, which asks whether the sink accepts. -/
structure Surroundings where
  /-- The bytes the sink has accepted, in emission order (R142). -/
  out : List Byte
  /-- How many bytes the sink accepts before it rejects one; `none`: it accepts every byte (R147). -/
  sinkLimit : Option Nat
  /-- Whether an observer is attached (R143). -/
  observing : Bool
  /-- The records the observer has been given, oldest first (R143). -/
  trace : List ObsRecord
  deriving DecidableEq, Repr

/-- A machine state (`toMachineState`) in its surroundings (`toSurroundings`). -/
structure State extends MachineState, Surroundings where
  deriving DecidableEq, Repr

/-- What stops a run other than Halted. -/
inductive Fault where
  /-- Raised by OUT alone, when the sink rejects its byte: the byte, and the CORE state, "exactly as
  after a successful OUT" without the byte in the output list (R521). The spec's own outcome, so
  it departs from the hardware in neither direction: safe. -/
  | sinkFault (byte : Byte) (after : State)
  deriving DecidableEq, Repr

/-- Why an instruction has no meaning. -/
inductive Refusal where
  /-- Raised by an arm of `exec` for an instruction without a meaning; no arm raises it. Safe. -/
  | notModelled (mnemonic : String)
  deriving DecidableEq, Repr

/-- The outcome of a step or of a meaning. -/
abbrev Result := Host.Outcome State Fault Refusal

/-- The all-zero construction (R150, R700 item 1): every register, the pointer, every memory byte
and the flags zero or false (log 9). -/
def MachineState.reset : MachineState where
  regs := ⟨0, 0, 0, 0⟩
  ip := 0
  mem := []
  flag := false
  halted := false

/-- Nothing emitted, a sink that accepts every byte, no observer (log 13, 14). -/
def Surroundings.reset : Surroundings where
  out := []
  sinkLimit := none
  observing := false
  trace := []

/-- The machine right after the all-zero construction, in its surroundings. -/
def State.reset : State where
  toMachineState := MachineState.reset
  toSurroundings := Surroundings.reset

end Sys2Proof.Machine
end

