-- ==== Sys2Proof/Machine/Ops.lean ====
section
/-! DEFINITION. The named operations over registers, pointer, memory, flags, sink and observer
(spec/00_scope.md R22; spec/10_state.md R110 to R143; spec/20_memory.md R210, R211).

There is no operation for taking an exception or returning from one: the CORE "raises no
synchronous exception" and "there is no trap mechanism" (spec/60_exceptions.md R600, R604, R605). -/

namespace Sys2Proof.Machine

/-! ### Memory as a canonical list of cells -/

/-- The canonical form: strictly rising addresses, each below 65536, and no cell equal to what an
unlisted address reads as. -/
abbrev Memory.wf (m : Memory) : Prop :=
  m.Pairwise (fun c d => c.1 < d.1) ∧ ∀ c ∈ m, c.1 < 65536 ∧ c.2 ≠ 0

/-- The byte at a key; an unlisted one reads as 0x00 (R150). -/
def Memory.read : Memory → Nat → Byte
  | [], _ => 0
  | (k, x) :: m, a => if a = k then x else Memory.read m a

/-- A cell before `m`, unless its byte is what an unlisted address reads as. -/
def Memory.push (a : Nat) (v : Byte) (m : Memory) : Memory :=
  if v = 0 then m else (a, v) :: m

/-- The memory with the byte at key `a` set to `v`, in canonical form. -/
def Memory.write : Memory → Nat → Byte → Memory
  | [], a, v => Memory.push a v []
  | (k, x) :: m, a, v =>
    if a < k then Memory.push a v ((k, x) :: m)
    else if a = k then Memory.push a v m
    else (k, x) :: Memory.write m a v

/-- The memory whose bytes from key `k` on are the given ones (image byte i becomes `mem[i]`, R702). -/
def Memory.ofBytes (k : Nat) : List Byte → Memory
  | [] => []
  | v :: rest => Memory.push k v (Memory.ofBytes (k + 1) rest)

/-! ### Registers -/

/-- `x[r]` (R22). -/
def State.reg (s : State) : Reg → Byte
  | .A => s.regs.a
  | .B => s.regs.b
  | .C => s.regs.c
  | .D => s.regs.d

/-- `x[r] <- v` (R22). No register discards a write (R103). -/
def State.setReg (s : State) (r : Reg) (v : Byte) : State :=
  match r with
  | .A => { s with regs := { s.regs with a := v } }
  | .B => { s with regs := { s.regs with b := v } }
  | .C => { s with regs := { s.regs with c := v } }
  | .D => { s with regs := { s.regs with d := v } }

/-! ### Instruction pointer -/

/-- `advance(n)`: the pointer forward by n, modulo 65536 (R112). -/
def State.advance (s : State) (n : Nat) : State :=
  { s with ip := s.ip + BitVec.ofNat 16 n }

/-- `jump(address)`: the pointer set absolutely (R112). -/
def State.jump (s : State) (a : Addr) : State :=
  { s with ip := a }

/-! ### Memory accesses, every one through the byte-wide primitives (R144) -/

/-- `MemRead(a, 1)` (R210). -/
def State.memRead (s : State) (a : Addr) : Byte :=
  s.mem.read a.toNat

/-- `MemRead(a, 2)`: the byte at the lower address is the low byte; the second address wraps (R210). -/
def State.memRead16 (s : State) (a : Addr) : Addr :=
  word16 (s.memRead (a + 1)) (s.memRead a)

/-- `MemWrite(a, 1, v)` (R211). -/
def State.memWrite (s : State) (a : Addr) (v : Byte) : State :=
  { s with mem := s.mem.write a.toNat v }

/-- `MemWrite(a, 2, w)`: the low byte at `a`, then the high byte at `a + 1`, which wraps (R211). -/
def State.memWrite16 (s : State) (a : Addr) (w : Addr) : State :=
  (s.memWrite a (loByte w)).memWrite (a + 1) (hiByte w)

/-! ### The two flags -/

/-- `F <- true` (R420, R480). -/
def State.setFlag (s : State) : State := { s with flag := true }

/-- `F <- false` (R421, R466). -/
def State.clearFlag (s : State) : State := { s with flag := false }

/-- `H <- true` (R522). -/
def State.halt (s : State) : State := { s with halted := true }

/-! ### The ports -/

/-- Whether the sink accepts the next byte (R147; log 13). -/
def State.sinkAccepts (s : State) : Bool :=
  match s.sinkLimit with
  | none => true
  | some n => decide (s.out.length < n)

/-- `Emit(b)`: the byte is appended to the sink, in emission order (R142). -/
def State.emit (s : State) (b : Byte) : State := { s with out := s.out ++ [b] }

/-- The observer is given its record, if there is one (R143). -/
def State.observe (s : State) (opcode : Byte) (v : Variant) : State :=
  if s.observing then
    { s with trace := s.trace ++ [⟨s.regs, s.ip, s.flag, s.halted, opcode, v⟩] }
  else s

/-- The end of a step: the observer is called after a COMPLETED step only; a step that ends in
SinkFault is not one (DEDUCED, log 14). -/
def complete (opcode : Byte) (v : Variant) : Result → Result
  | .next s => .next (s.observe opcode v)
  | .fault f => .fault f
  | .refused r => .refused r

/-- The status a step returns (R140). -/
inductive Status where
  | running | halted
  deriving DecidableEq, Repr

/-- The status is the value of H (R130, R140). -/
def State.status (s : State) : Status := if s.halted then .halted else .running

end Sys2Proof.Machine
end

