-- ==== Sys2Proof/Machine/Operands.lean ====
section
/-! DEFINITION. Fetching an instruction's bytes and the operand forms (spec/30_encoding.md R310 to
R312; spec/10_state.md R111; spec/20_memory.md R213). -/

namespace Sys2Proof.Machine

/-- `Fetch8()`: the byte at the pointer, and the state with the pointer one further (R22). -/
def fetch8 (s : State) : Byte × State :=
  (s.memRead s.ip, s.advance 1)

/-- `Fetch16()`: two bytes, least-significant first (R311). -/
def fetch16 (s : State) : Addr × State :=
  let lo := fetch8 s
  let hi := fetch8 lo.2
  (word16 hi.1 lo.1, hi.2)

/-- The operand bytes of a format, low and high, zero where the format has none, and the state past
them (R302, R310). -/
def fetchOperands (f : Format) (s : State) : Byte × Byte × State :=
  match f with
  | .f0 => (0, 0, s)
  | .f8 => ((fetch8 s).1, 0, (fetch8 s).2)
  | .f16 => (loByte (fetch16 s).1, hiByte (fetch16 s).1, (fetch16 s).2)

/-- A fetched instruction: its opcode byte, the instruction, and the state past all its bytes. -/
structure Fetched where
  opcode : Byte
  instr : Instr
  state : State
  deriving DecidableEq, Repr

/-- Fetch and decode the instruction at the pointer under BA-REF (R310): the opcode byte first, then
exactly the operand bytes of its format. -/
def fetch (s : State) : Fetched :=
  let op := fetch8 s
  let o := fetchOperands (formatOf op.1) op.2
  ⟨op.1, instrOf op.1 o.1 o.2.1, o.2.2⟩

/-- `d8`: an unsigned displacement 0..255, zero-extended (R312, R463). -/
def displacement (d : Byte) : Nat := d.toNat

/-- `n8`: an unsigned shift count, which the rotates use modulo 8 (R312). -/
def shiftCount (n : Byte) : Nat := n.toNat

end Sys2Proof.Machine
end

