-- ==== Sys2Proof/Machine/Alu.lean ====
section
/-! DEFINITION. Register-pair ALU operations (spec/42_alu.md). No flag is written (R440; the
spec's decision D20, log 15). -/

namespace Sys2Proof.Machine

/-- The operation on two bytes: wrapping modulo 256 for add and subtract (the destination minus the
source), bitwise for the others (R441 to R445). -/
def aluResult : AluOp → Byte → Byte → Byte
  | .add, x, y => x + y
  | .sub, x, y => x - y
  | .and, x, y => x &&& y
  | .xor, x, y => x ^^^ y
  | .or, x, y => x ||| y

/-- `t <- f_op(x[d], x[s]); x[d] <- t`: both operands are read before the write (R440). Defined
for every pair, d = s included. -/
def alu (op : AluOp) (d r : Reg) (s : State) : State :=
  s.setReg d (aluResult op (s.reg d) (s.reg r))

/-- `ADD A, B` (R441). -/
def execAddAB (s : State) : Result :=
  .next (alu .add .A .B s)

/-- `ADD A, C` (R441). -/
def execAddAC (s : State) : Result :=
  .next (alu .add .A .C s)

/-- `ADD A, D` (R441). -/
def execAddAD (s : State) : Result :=
  .next (alu .add .A .D s)

/-- `ADD B, A` (R441). -/
def execAddBA (s : State) : Result :=
  .next (alu .add .B .A s)

/-- `ADD B, C` (R441). -/
def execAddBC (s : State) : Result :=
  .next (alu .add .B .C s)

/-- `ADD B, D` (R441). -/
def execAddBD (s : State) : Result :=
  .next (alu .add .B .D s)

/-- `ADD C, A` (R441). -/
def execAddCA (s : State) : Result :=
  .next (alu .add .C .A s)

/-- `ADD C, B` (R441). -/
def execAddCB (s : State) : Result :=
  .next (alu .add .C .B s)

/-- `ADD C, D` (R441). -/
def execAddCD (s : State) : Result :=
  .next (alu .add .C .D s)

/-- `ADD D, A` (R441). -/
def execAddDA (s : State) : Result :=
  .next (alu .add .D .A s)

/-- `ADD D, B` (R441). -/
def execAddDB (s : State) : Result :=
  .next (alu .add .D .B s)

/-- `ADD D, C` (R441). -/
def execAddDC (s : State) : Result :=
  .next (alu .add .D .C s)

/-- `SUB A, B` (R442). -/
def execSubAB (s : State) : Result :=
  .next (alu .sub .A .B s)

/-- `SUB A, C` (R442). -/
def execSubAC (s : State) : Result :=
  .next (alu .sub .A .C s)

/-- `SUB A, D` (R442). -/
def execSubAD (s : State) : Result :=
  .next (alu .sub .A .D s)

/-- `SUB B, A` (R442). -/
def execSubBA (s : State) : Result :=
  .next (alu .sub .B .A s)

/-- `SUB B, C` (R442). -/
def execSubBC (s : State) : Result :=
  .next (alu .sub .B .C s)

/-- `SUB B, D` (R442). -/
def execSubBD (s : State) : Result :=
  .next (alu .sub .B .D s)

/-- `SUB C, A` (R442). -/
def execSubCA (s : State) : Result :=
  .next (alu .sub .C .A s)

/-- `SUB C, B` (R442). -/
def execSubCB (s : State) : Result :=
  .next (alu .sub .C .B s)

/-- `SUB C, D` (R442). -/
def execSubCD (s : State) : Result :=
  .next (alu .sub .C .D s)

/-- `SUB D, A` (R442). -/
def execSubDA (s : State) : Result :=
  .next (alu .sub .D .A s)

/-- `SUB D, B` (R442). -/
def execSubDB (s : State) : Result :=
  .next (alu .sub .D .B s)

/-- `SUB D, C` (R442). -/
def execSubDC (s : State) : Result :=
  .next (alu .sub .D .C s)

/-- `AND A, B` (R443). -/
def execAndAB (s : State) : Result :=
  .next (alu .and .A .B s)

/-- `AND A, C` (R443). -/
def execAndAC (s : State) : Result :=
  .next (alu .and .A .C s)

/-- `AND A, D` (R443). -/
def execAndAD (s : State) : Result :=
  .next (alu .and .A .D s)

/-- `AND B, A` (R443). -/
def execAndBA (s : State) : Result :=
  .next (alu .and .B .A s)

/-- `AND B, C` (R443). -/
def execAndBC (s : State) : Result :=
  .next (alu .and .B .C s)

/-- `AND B, D` (R443). -/
def execAndBD (s : State) : Result :=
  .next (alu .and .B .D s)

/-- `AND C, A` (R443). -/
def execAndCA (s : State) : Result :=
  .next (alu .and .C .A s)

/-- `AND C, B` (R443). -/
def execAndCB (s : State) : Result :=
  .next (alu .and .C .B s)

/-- `AND C, D` (R443). -/
def execAndCD (s : State) : Result :=
  .next (alu .and .C .D s)

/-- `AND D, A` (R443). -/
def execAndDA (s : State) : Result :=
  .next (alu .and .D .A s)

/-- `AND D, B` (R443). -/
def execAndDB (s : State) : Result :=
  .next (alu .and .D .B s)

/-- `AND D, C` (R443). -/
def execAndDC (s : State) : Result :=
  .next (alu .and .D .C s)

/-- `XOR A, B` (R444). -/
def execXorAB (s : State) : Result :=
  .next (alu .xor .A .B s)

/-- `XOR A, C` (R444). -/
def execXorAC (s : State) : Result :=
  .next (alu .xor .A .C s)

/-- `XOR A, D` (R444). -/
def execXorAD (s : State) : Result :=
  .next (alu .xor .A .D s)

/-- `XOR B, A` (R444). -/
def execXorBA (s : State) : Result :=
  .next (alu .xor .B .A s)

/-- `XOR B, C` (R444). -/
def execXorBC (s : State) : Result :=
  .next (alu .xor .B .C s)

/-- `XOR B, D` (R444). -/
def execXorBD (s : State) : Result :=
  .next (alu .xor .B .D s)

/-- `XOR C, A` (R444). -/
def execXorCA (s : State) : Result :=
  .next (alu .xor .C .A s)

/-- `XOR C, B` (R444). -/
def execXorCB (s : State) : Result :=
  .next (alu .xor .C .B s)

/-- `XOR C, D` (R444). -/
def execXorCD (s : State) : Result :=
  .next (alu .xor .C .D s)

/-- `XOR D, A` (R444). -/
def execXorDA (s : State) : Result :=
  .next (alu .xor .D .A s)

/-- `XOR D, B` (R444). -/
def execXorDB (s : State) : Result :=
  .next (alu .xor .D .B s)

/-- `XOR D, C` (R444). -/
def execXorDC (s : State) : Result :=
  .next (alu .xor .D .C s)

/-- `OR A, B` (R445). -/
def execOrAB (s : State) : Result :=
  .next (alu .or .A .B s)

/-- `OR A, C` (R445). -/
def execOrAC (s : State) : Result :=
  .next (alu .or .A .C s)

/-- `OR A, D` (R445). -/
def execOrAD (s : State) : Result :=
  .next (alu .or .A .D s)

/-- `OR B, A` (R445). -/
def execOrBA (s : State) : Result :=
  .next (alu .or .B .A s)

/-- `OR B, C` (R445). -/
def execOrBC (s : State) : Result :=
  .next (alu .or .B .C s)

/-- `OR B, D` (R445). -/
def execOrBD (s : State) : Result :=
  .next (alu .or .B .D s)

/-- `OR C, A` (R445). -/
def execOrCA (s : State) : Result :=
  .next (alu .or .C .A s)

/-- `OR C, B` (R445). -/
def execOrCB (s : State) : Result :=
  .next (alu .or .C .B s)

/-- `OR C, D` (R445). -/
def execOrCD (s : State) : Result :=
  .next (alu .or .C .D s)

/-- `OR D, A` (R445). -/
def execOrDA (s : State) : Result :=
  .next (alu .or .D .A s)

/-- `OR D, B` (R445). -/
def execOrDB (s : State) : Result :=
  .next (alu .or .D .B s)

/-- `OR D, C` (R445). -/
def execOrDC (s : State) : Result :=
  .next (alu .or .D .C s)

end Sys2Proof.Machine
end

