-- ==== Sys2Proof/Machine/Flags.lean ====
section
/-! DEFINITION. The one flag computation of the CORE: when a comparison sets F
(spec/44_compare.md R480, R481). No other instruction computes a flag (R122). -/

namespace Sys2Proof.Machine

/-- `CMP_SEL` of a preset (R481): INTENDED reads the named register; OBSERVED reads A for the
less-than and greater-than comparisons of B and C. -/
def presetSel : CmpPreset → CmpKind → Reg → Reg
  | .intended, _, r => r
  | .observed, .lt, .B => .A
  | .observed, .lt, .C => .A
  | .observed, .gt, .B => .A
  | .observed, .gt, .C => .A
  | .observed, _, r => r

/-- `CMP_REL` of a preset (R481), on unsigned values (R24; the spec's decision D4, log 4): OBSERVED
tests greater-than where INTENDED tests equality. -/
def presetRel : CmpPreset → CmpKind → Byte → Byte → Bool
  | _, .lt, v, m => decide (v.toNat < m.toNat)
  | _, .gt, v, m => decide (v.toNat > m.toNat)
  | .intended, .eq, v, m => decide (v = m)
  | .observed, .eq, v, m => decide (v.toNat > m.toNat)

/-- The preset the machine runs under: the spec's reference value (R10, R481). DESIGN CHOICE, log 3. -/
def cmpPreset : CmpPreset := .intended

end Sys2Proof.Machine
end

