-- ==== Sys2Proof/Machine/Compare.lean ====
section
/-! DEFINITION. Comparisons against memory (spec/44_compare.md). -/

namespace Sys2Proof.Machine

/-- The common comparison of R480, for any `CMP_SEL` and `CMP_REL`: F becomes true if the relation
holds between the selected register and the memory byte, and is otherwise left unchanged. -/
def compareWith (sel : CmpKind → Reg → Reg) (rel : CmpKind → Byte → Byte → Bool)
    (kind : CmpKind) (r : Reg) (a : Addr) (s : State) : State :=
  if rel kind (s.reg (sel kind r)) (s.memRead a) then s.setFlag else s

/-- The comparison under the reference preset (R481; DESIGN CHOICE, log 3). -/
def compare (kind : CmpKind) (r : Reg) (a : Addr) (s : State) : State :=
  compareWith (presetSel cmpPreset) (presetRel cmpPreset) kind r a s

/-- `CMPLT A, a16` (R483). -/
def execCmpltA (a : Addr) (s : State) : Result :=
  .next (compare .lt .A a s)

/-- `CMPLT B, a16` (R483). -/
def execCmpltB (a : Addr) (s : State) : Result :=
  .next (compare .lt .B a s)

/-- `CMPLT C, a16` (R483). -/
def execCmpltC (a : Addr) (s : State) : Result :=
  .next (compare .lt .C a s)

/-- `CMPLT D, a16` (R483). -/
def execCmpltD (a : Addr) (s : State) : Result :=
  .next (compare .lt .D a s)

/-- `CMPGT A, a16` (R484). -/
def execCmpgtA (a : Addr) (s : State) : Result :=
  .next (compare .gt .A a s)

/-- `CMPGT B, a16` (R484). -/
def execCmpgtB (a : Addr) (s : State) : Result :=
  .next (compare .gt .B a s)

/-- `CMPGT C, a16` (R484). -/
def execCmpgtC (a : Addr) (s : State) : Result :=
  .next (compare .gt .C a s)

/-- `CMPGT D, a16` (R484). -/
def execCmpgtD (a : Addr) (s : State) : Result :=
  .next (compare .gt .D a s)

/-- `CMPEQ A, a16` (R485). -/
def execCmpeqA (a : Addr) (s : State) : Result :=
  .next (compare .eq .A a s)

/-- `CMPEQ B, a16` (R485). -/
def execCmpeqB (a : Addr) (s : State) : Result :=
  .next (compare .eq .B a s)

/-- `CMPEQ C, a16` (R485). -/
def execCmpeqC (a : Addr) (s : State) : Result :=
  .next (compare .eq .C a s)

/-- `CMPEQ D, a16` (R485). -/
def execCmpeqD (a : Addr) (s : State) : Result :=
  .next (compare .eq .D a s)

end Sys2Proof.Machine
end

