-- ==== Sys2Proof/Machine/Control.lean ====
section
/-! DEFINITION. Control transfer and instruction-pointer capture (spec/43_control.md). In each the
instruction pointer already stands after the operand (R111). -/

namespace Sys2Proof.Machine

/-- `JMP a16`: the pointer is set absolutely (R460). -/
def execJmp (a : Addr) (s : State) : Result :=
  .next (s.jump a)

/-- `JR d8`: forward by the unsigned displacement; F neither read nor written (R462, R463; the
spec's decision D5, log 5). -/
def execJr (d : Byte) (s : State) : Result :=
  .next (s.advance (displacement d))

/-- `WIP a16`: the pointer after the operand is stored little-endian (R464). -/
def execWip (a : Addr) (s : State) : Result :=
  .next (s.memWrite16 a s.ip)

/-- `BR d8`: if F, clear it and advance; if not F, no effect (R466). -/
def execBr (d : Byte) (s : State) : Result :=
  .next (if s.flag then s.clearFlag.advance (displacement d) else s)

end Sys2Proof.Machine
end

