-- ==== Sys2Proof/Machine/FlagOps.lean ====
section
/-! DEFINITION. Flag set and clear (spec/41_flag.md). -/

namespace Sys2Proof.Machine

/-- `SETF` (R420). -/
def execSetf (s : State) : Result :=
  .next s.setFlag

/-- `CLRF` (R421). -/
def execClrf (s : State) : Result :=
  .next s.clearFlag

end Sys2Proof.Machine
end

