-- ==== Sys2Proof/Machine/LoadStore.lean ====
section
/-! DEFINITION. No-op, load and store (spec/40_nop_load_store.md). -/

namespace Sys2Proof.Machine

/-- `NOP`: nothing beyond the opcode fetch (R400). -/
def execNop (s : State) : Result :=
  .next s

/-- `x[r] <- MemRead(a, 1)` (R401). -/
def load (r : Reg) (a : Addr) (s : State) : State :=
  s.setReg r (s.memRead a)

/-- `MemWrite(a, 1, x[r])` (R402). -/
def store (r : Reg) (a : Addr) (s : State) : State :=
  s.memWrite a (s.reg r)

/-- `LD A, a16` (R401). -/
def execLdA (a : Addr) (s : State) : Result :=
  .next (load .A a s)

/-- `LD B, a16` (R401). -/
def execLdB (a : Addr) (s : State) : Result :=
  .next (load .B a s)

/-- `LD C, a16` (R401). -/
def execLdC (a : Addr) (s : State) : Result :=
  .next (load .C a s)

/-- `LD D, a16` (R401). -/
def execLdD (a : Addr) (s : State) : Result :=
  .next (load .D a s)

/-- `ST A, a16` (R402). -/
def execStA (a : Addr) (s : State) : Result :=
  .next (store .A a s)

/-- `ST B, a16` (R402). -/
def execStB (a : Addr) (s : State) : Result :=
  .next (store .B a s)

/-- `ST C, a16` (R402). -/
def execStC (a : Addr) (s : State) : Result :=
  .next (store .C a s)

/-- `ST D, a16` (R402). -/
def execStD (a : Addr) (s : State) : Result :=
  .next (store .D a s)

end Sys2Proof.Machine
end

