-- ==== Sys2Proof/Machine/Output.lean ====
section
/-! DEFINITION. Output and halt-attempt (spec/46_output_halt.md). -/

namespace Sys2Proof.Machine

/-- `Emit(MemRead(a, 1))`, or `SinkFault` if the sink rejects the byte: the state of the fault is
the state after a successful OUT, but for the byte that is not in the output list (R520, R521;
the spec's decisions D7 and D13, log 7, 12). -/
def output (a : Addr) (s : State) : Result :=
  if s.sinkAccepts then .next (s.emit (s.memRead a)) else .fault (.sinkFault (s.memRead a) s)

/-- `OUT a16` (R520, R521). -/
def execOut (a : Addr) (s : State) : Result :=
  output a s

/-- Whether the halt condition holds: all four registers 0xFF and F true (R522). -/
def haltCondition (s : State) : Bool :=
  s.reg .A == 0xFF && s.reg .B == 0xFF && s.reg .C == 0xFF && s.reg .D == 0xFF && s.flag

/-- `HALT`: H becomes true when the condition holds; otherwise no effect (R522). F stays as it is. -/
def execHalt (s : State) : Result :=
  .next (if haltCondition s then s.halt else s)

end Sys2Proof.Machine
end

