-- ==== Sys2Proof/Machine/Rotate.lean ====
section
/-! DEFINITION. Register rotates (spec/45_rotate.md). No flag is written (the spec's decision D20,
log 15); the count is one unsigned byte used modulo 8 (D6, log 6). -/

namespace Sys2Proof.Machine

/-- `rotl8(v, n)`, toward the most significant bit (R500; the direction is the spec's general
knowledge G2, log 19). -/
def rotl8 (v : Byte) (n : Nat) : Byte :=
  (v <<< (n % 8)) ||| (v >>> (8 - n % 8))

/-- `rotr8(v, n)`, toward the least significant bit (R500). -/
def rotr8 (v : Byte) (n : Nat) : Byte :=
  (v >>> (n % 8)) ||| (v <<< (8 - n % 8))

/-- The rotated value of a direction. -/
def rotResult : RotDir → Byte → Nat → Byte
  | .left, v, n => rotl8 v n
  | .right, v, n => rotr8 v n

/-- `x[r] <- rot(x[r], n)` (R501, R502). -/
def rotate (dir : RotDir) (r : Reg) (n : Byte) (s : State) : State :=
  s.setReg r (rotResult dir (s.reg r) (shiftCount n))

/-- `ROL A, n8` (R501). -/
def execRolA (n : Byte) (s : State) : Result :=
  .next (rotate .left .A n s)

/-- `ROL B, n8` (R501). -/
def execRolB (n : Byte) (s : State) : Result :=
  .next (rotate .left .B n s)

/-- `ROL C, n8` (R501). -/
def execRolC (n : Byte) (s : State) : Result :=
  .next (rotate .left .C n s)

/-- `ROL D, n8` (R501). -/
def execRolD (n : Byte) (s : State) : Result :=
  .next (rotate .left .D n s)

/-- `ROR A, n8` (R502). -/
def execRorA (n : Byte) (s : State) : Result :=
  .next (rotate .right .A n s)

/-- `ROR B, n8` (R502). -/
def execRorB (n : Byte) (s : State) : Result :=
  .next (rotate .right .B n s)

/-- `ROR C, n8` (R502). -/
def execRorC (n : Byte) (s : State) : Result :=
  .next (rotate .right .C n s)

/-- `ROR D, n8` (R502). -/
def execRorD (n : Byte) (s : State) : Result :=
  .next (rotate .right .D n s)

end Sys2Proof.Machine
end

