-- ==== Sys2Proof/Machine/Dispatch.lean ====
section
/-! DEFINITION. The dispatch: one arm per instruction, each one call of its meaning. -/

namespace Sys2Proof.Machine

/-- The effect of instruction `i` in a state whose instruction pointer has already passed all of
`i`'s bytes (spec/10_state.md R111; `Execute` of spec/30_encoding.md R310). -/
def exec (i : Instr) (s : State) : Host.Outcome State Fault Refusal :=
  match i with
  | .nop => Sys2Proof.Machine.execNop s
  | .setf => Sys2Proof.Machine.execSetf s
  | .clrf => Sys2Proof.Machine.execClrf s
  | .jmp a => Sys2Proof.Machine.execJmp a s
  | .ldA a => Sys2Proof.Machine.execLdA a s
  | .ldB a => Sys2Proof.Machine.execLdB a s
  | .ldC a => Sys2Proof.Machine.execLdC a s
  | .ldD a => Sys2Proof.Machine.execLdD a s
  | .stA a => Sys2Proof.Machine.execStA a s
  | .stB a => Sys2Proof.Machine.execStB a s
  | .stC a => Sys2Proof.Machine.execStC a s
  | .stD a => Sys2Proof.Machine.execStD a s
  | .jr d => Sys2Proof.Machine.execJr d s
  | .wip a => Sys2Proof.Machine.execWip a s
  | .br d => Sys2Proof.Machine.execBr d s
  | .out a => Sys2Proof.Machine.execOut a s
  | .cmpltA a => Sys2Proof.Machine.execCmpltA a s
  | .cmpltB a => Sys2Proof.Machine.execCmpltB a s
  | .cmpltC a => Sys2Proof.Machine.execCmpltC a s
  | .cmpltD a => Sys2Proof.Machine.execCmpltD a s
  | .cmpgtA a => Sys2Proof.Machine.execCmpgtA a s
  | .cmpgtB a => Sys2Proof.Machine.execCmpgtB a s
  | .cmpgtC a => Sys2Proof.Machine.execCmpgtC a s
  | .cmpgtD a => Sys2Proof.Machine.execCmpgtD a s
  | .cmpeqA a => Sys2Proof.Machine.execCmpeqA a s
  | .cmpeqB a => Sys2Proof.Machine.execCmpeqB a s
  | .cmpeqC a => Sys2Proof.Machine.execCmpeqC a s
  | .cmpeqD a => Sys2Proof.Machine.execCmpeqD a s
  | .rolA n => Sys2Proof.Machine.execRolA n s
  | .rolB n => Sys2Proof.Machine.execRolB n s
  | .rolC n => Sys2Proof.Machine.execRolC n s
  | .rolD n => Sys2Proof.Machine.execRolD n s
  | .rorA n => Sys2Proof.Machine.execRorA n s
  | .rorB n => Sys2Proof.Machine.execRorB n s
  | .rorC n => Sys2Proof.Machine.execRorC n s
  | .rorD n => Sys2Proof.Machine.execRorD n s
  | .addAB => Sys2Proof.Machine.execAddAB s
  | .addAC => Sys2Proof.Machine.execAddAC s
  | .addAD => Sys2Proof.Machine.execAddAD s
  | .addBA => Sys2Proof.Machine.execAddBA s
  | .addBC => Sys2Proof.Machine.execAddBC s
  | .addBD => Sys2Proof.Machine.execAddBD s
  | .addCA => Sys2Proof.Machine.execAddCA s
  | .addCB => Sys2Proof.Machine.execAddCB s
  | .addCD => Sys2Proof.Machine.execAddCD s
  | .addDA => Sys2Proof.Machine.execAddDA s
  | .addDB => Sys2Proof.Machine.execAddDB s
  | .addDC => Sys2Proof.Machine.execAddDC s
  | .subAB => Sys2Proof.Machine.execSubAB s
  | .subAC => Sys2Proof.Machine.execSubAC s
  | .subAD => Sys2Proof.Machine.execSubAD s
  | .subBA => Sys2Proof.Machine.execSubBA s
  | .subBC => Sys2Proof.Machine.execSubBC s
  | .subBD => Sys2Proof.Machine.execSubBD s
  | .subCA => Sys2Proof.Machine.execSubCA s
  | .subCB => Sys2Proof.Machine.execSubCB s
  | .subCD => Sys2Proof.Machine.execSubCD s
  | .subDA => Sys2Proof.Machine.execSubDA s
  | .subDB => Sys2Proof.Machine.execSubDB s
  | .subDC => Sys2Proof.Machine.execSubDC s
  | .andAB => Sys2Proof.Machine.execAndAB s
  | .andAC => Sys2Proof.Machine.execAndAC s
  | .andAD => Sys2Proof.Machine.execAndAD s
  | .andBA => Sys2Proof.Machine.execAndBA s
  | .andBC => Sys2Proof.Machine.execAndBC s
  | .andBD => Sys2Proof.Machine.execAndBD s
  | .andCA => Sys2Proof.Machine.execAndCA s
  | .andCB => Sys2Proof.Machine.execAndCB s
  | .andCD => Sys2Proof.Machine.execAndCD s
  | .andDA => Sys2Proof.Machine.execAndDA s
  | .andDB => Sys2Proof.Machine.execAndDB s
  | .andDC => Sys2Proof.Machine.execAndDC s
  | .xorAB => Sys2Proof.Machine.execXorAB s
  | .xorAC => Sys2Proof.Machine.execXorAC s
  | .xorAD => Sys2Proof.Machine.execXorAD s
  | .xorBA => Sys2Proof.Machine.execXorBA s
  | .xorBC => Sys2Proof.Machine.execXorBC s
  | .xorBD => Sys2Proof.Machine.execXorBD s
  | .xorCA => Sys2Proof.Machine.execXorCA s
  | .xorCB => Sys2Proof.Machine.execXorCB s
  | .xorCD => Sys2Proof.Machine.execXorCD s
  | .xorDA => Sys2Proof.Machine.execXorDA s
  | .xorDB => Sys2Proof.Machine.execXorDB s
  | .xorDC => Sys2Proof.Machine.execXorDC s
  | .orAB => Sys2Proof.Machine.execOrAB s
  | .orAC => Sys2Proof.Machine.execOrAC s
  | .orAD => Sys2Proof.Machine.execOrAD s
  | .orBA => Sys2Proof.Machine.execOrBA s
  | .orBC => Sys2Proof.Machine.execOrBC s
  | .orBD => Sys2Proof.Machine.execOrBD s
  | .orCA => Sys2Proof.Machine.execOrCA s
  | .orCB => Sys2Proof.Machine.execOrCB s
  | .orCD => Sys2Proof.Machine.execOrCD s
  | .orDA => Sys2Proof.Machine.execOrDA s
  | .orDB => Sys2Proof.Machine.execOrDB s
  | .orDC => Sys2Proof.Machine.execOrDC s
  | .halt => Sys2Proof.Machine.execHalt s

end Sys2Proof.Machine
end

