-- ==== Sys2Proof/Machine/Engine.lean ====
section
/-! DEFINITION. The execution engine: one fetch, decode and execute (spec/30_encoding.md R310;
spec/10_state.md R132). -/

namespace Sys2Proof.Machine

/-- One step of the engine: nothing when Halted (R132); otherwise fetch and decode the instruction
at the pointer, execute it in the state past its bytes, and call the observer (R310). -/
def engineStep (s : State) : Result :=
  if s.halted then .next s
  else complete (fetch s).opcode (fetch s).instr.variant (exec (fetch s).instr (fetch s).state)

end Sys2Proof.Machine
end

