-- ==== Sys2Proof/Machine/Step.lean ====
section
/-! DEFINITION. One step of the machine (spec/30_encoding.md R310; spec/10_state.md R132, R140), and
the placing of a program word where it fetches. -/

namespace Sys2Proof.Machine

/-- The step port: one whole instruction, or nothing when Halted (R140). -/
def step (s : State) : Host.Outcome State Fault Refusal :=
  engineStep s

/-- `s` with the instruction word `w` of `nbits` bits where the next step fetches: its bytes at the
pointer, three of them (the longest instruction), those above `nbits` zero. The machine is made
Running, since a Halted one fetches nothing (log 17). -/
def State.withFetchWord (s : State) (nbits w : Nat) : State :=
  let v := w % 2 ^ nbits
  let s0 := s.memWrite s.ip (BitVec.ofNat 8 v)
  let s1 := s0.memWrite (s.ip + 1) (BitVec.ofNat 8 (v / 256))
  let s2 := s1.memWrite (s.ip + 2) (BitVec.ofNat 8 (v / 65536))
  { s2 with halted := false }

end Sys2Proof.Machine
end

