-- ==== Sys2Proof/Machine/Construct.lean ====
section
/-! DEFINITION. The constructions other than all-zero (spec/70_reset_and_hazards.md R700 to R702;
spec/10_state.md R141, R150). The all-zero construction is `State.reset`. -/

namespace Sys2Proof.Machine

/-- Image construction: image byte i becomes `mem[i]`, every other component is zero or false; a
block of any other length constructs no CORE (R702; the spec's decision D9, log 9). -/
def constructImage (image : List Byte) : Option State :=
  if wellFormedImage image then some { State.reset with mem := Memory.ofBytes 0 image } else none

/-- Random construction, from the bytes the source gives: the n-th byte drawn goes to address n
(R701; the spec's decision D10, log 10). A source that gives fewer than 65536 bytes is unavailable
and constructs no CORE (spec/93_implementation_defined.md I7). -/
def constructRandom (draws : List Byte) : Option State :=
  constructImage (draws.take 65536)

end Sys2Proof.Machine
end

