-- ==== Sys2Proof/Machine/Parametric.lean ====
section
/-! DEFINITION. The machine with its parameters as arguments (spec/00_scope.md R11;
spec/30_encoding.md R322): `Params.step P` runs under any `OPCODE_MAP`, `ALU_PAIRS`, `CMP_SEL` and
`CMP_REL`. It is built over the same operations as `exec`; that `step` is `Params.step` at the
reference parameters is an obligation. -/

namespace Sys2Proof.Machine

/-- The effect of a variant with operand bytes `lo`, `hi`, once the pointer has passed them
(`Execute` of R310, for the rules of files 40 to 46). -/
def execVariant (P : Params) (v : Variant) (lo hi : Byte) (s : State) : Result :=
  match v with
  | .nop => .next s
  | .ld r => .next (load r (word16 hi lo) s)
  | .st r => .next (store r (word16 hi lo) s)
  | .setf => .next s.setFlag
  | .clrf => .next s.clearFlag
  | .alu op d r => .next (alu op d r s)
  | .jmp => .next (s.jump (word16 hi lo))
  | .jr => .next (s.advance (displacement lo))
  | .wip => .next (s.memWrite16 (word16 hi lo) s.ip)
  | .br => .next (if s.flag then s.clearFlag.advance (displacement lo) else s)
  | .cmp kind r => .next (compareWith P.cmpSel P.cmpRel kind r (word16 hi lo) s)
  | .rot dir r => .next (rotate dir r lo s)
  | .out => output (word16 hi lo) s
  | .halt => .next (if haltCondition s then s.halt else s)

/-- One step under the parameters `P` (R310, R132). -/
def paramStep (P : Params) (s : State) : Result :=
  if s.halted then .next s
  else
    let op := fetch8 s
    let v := P.opcodeMap op.1
    let o := fetchOperands v.format op.2
    complete op.1 v (execVariant P v o.1 o.2.1 o.2.2)

/-- The explicit assignments of BA-REF: every byte that decodes to a variant other than NOP, and
0x00 (R330, R332). -/
def baRefAssign (b : Byte) : Option Variant :=
  if b = 0x00 then some .nop
  else if variantOf b = .nop then none
  else some (variantOf b)

/-- `ALU_PAIRS` under BA-REF: the 12 pairs with d ≠ s, for every operation (R332; log 2). -/
def baRefPairs (_ : AluOp) (d r : Reg) : Bool := decide (d ≠ r)

/-- BA-REF with the compare parameters of a preset (R330, R481). -/
def baRefWith (preset : CmpPreset) : Params where
  assign := baRefAssign
  aluPairs := baRefPairs
  cmpSel := presetSel preset
  cmpRel := presetRel preset

/-- The reference parameters of R10: BA-REF and the machine's preset. -/
def baRef : Params := baRefWith cmpPreset

end Sys2Proof.Machine
end

