-- ==== Sys2Proof/Machine/Relation.lean ====
section
/-! DEFINITION. The step over the machine's five components alone (spec/10_state.md R100, R101): the
sink's answer is a parameter of it, and the byte it emits is what is observed of it. It is the
machine `paramStep` runs, seen without its surroundings; that `paramStep` adds nothing but the
bookkeeping of the surroundings is an obligation. -/

namespace Sys2Proof.Machine

/-- What a step leaves of the CORE: the machine state with the byte it emitted, if any, or, when the
sink rejects, the machine state with the rejected byte (R142, R521). -/
abbrev CoreResult := Host.Outcome (MachineState × Option Byte) (MachineState × Byte) Refusal

/-- A sink that has accepted nothing yet and answers the next byte as `accepts` says; no observer. -/
def Surroundings.answering (accepts : Bool) : Surroundings where
  out := []
  sinkLimit := if accepts then none else some 0
  observing := false
  trace := []

/-- An outcome without the surroundings of its state. -/
def coreResult : Result → CoreResult
  | .next t => .next (t.toMachineState, t.out.head?)
  | .fault (.sinkFault b t) => .fault (t.toMachineState, b)
  | .refused r => .refused r

/-- One step of the CORE under the parameters `P` and a sink that answers as `accepts` says. -/
def coreStep (P : Params) (accepts : Bool) (m : MachineState) : CoreResult :=
  coreResult (paramStep P { toMachineState := m, toSurroundings := .answering accepts })

/-- An outcome of the CORE in the surroundings `e`: an accepted byte is appended to the sink's (R142). -/
def Surroundings.receive (e : Surroundings) : CoreResult → Result
  | .next (m, b) =>
    .next { toMachineState := m, toSurroundings := { e with out := e.out ++ b.toList } }
  | .fault (m, b) => .fault (.sinkFault b { toMachineState := m, toSurroundings := e })
  | .refused r => .refused r

end Sys2Proof.Machine
end

