-- ==== Sys2Proof/Machine/Run.lean ====
section
/-! DEFINITION. A run as the host drives it, with the harness's step ceiling
(spec/70_reset_and_hazards.md R740; spec/10_state.md R140, R146). The ceiling is the harness's, not
the CORE's (R620). -/

namespace Sys2Proof.Machine

/-- How a run ends (R740). -/
inductive EndKind where
  | halted | sinkFault | stopped
  deriving DecidableEq, Repr

/-- The observation of a run: how it ended and the final state, its output list included
(spec/92_eei_decisions.md D18). -/
structure RunEnd where
  kind : EndKind
  final : State
  deriving DecidableEq, Repr

/-- At most `limit` steps: the run ends Halted, with a SinkFault, or Stopped at the ceiling with the
state after the last completed step (R740, R146; log 21). No step is refused. -/
def runUpTo : Nat → State → RunEnd
  | 0, s => ⟨if s.halted then .halted else .stopped, s⟩
  | n + 1, s =>
    if s.halted then ⟨.halted, s⟩
    else
      match step s with
      | .next t => runUpTo n t
      | .fault (.sinkFault _ t) => ⟨.sinkFault, t⟩
      | .refused _ => ⟨.stopped, s⟩

end Sys2Proof.Machine
end

