-- ==== Sys2Proof/Safety.lean ====
section
/-! DEFINITION. What counts as a good state and a good run, in the terms the statements use. -/

namespace Sys2Proof.Machine

/-- The invariant of the model's states: memory is in canonical form (log 16). -/
def State.Inv (s : State) : Prop := s.mem.wf

/-- A run that the sink does not break: SinkFault "is never a successful end of a run" (R147). -/
def SafeRun (limit : Nat) (s : State) : Prop := (runUpTo limit s).kind ≠ .sinkFault

/-- A run that reaches the terminal state of the CORE within its ceiling (R740 (a)). -/
def RunHalts (limit : Nat) (s : State) : Prop := (runUpTo limit s).kind = .halted

end Sys2Proof.Machine
end

