-- ==== Sys2Proof/Certificates/Slice0/Obligations.lean ====
section
/-! DEFINITION. The statements about the machine, and the few words they are said in: what an
instruction leaves unchanged (`Frame`), and which bytes stand at the pointer.

The opcode bytes of BA-REF are the spec's own choice (spec/92_eei_decisions.md D1, log 1), so a
statement about a step from bytes of memory is a statement about BA-REF. -/

namespace Sys2Proof.Frame

open Sys2Proof.Machine

/-- Every register is as before. -/
def RegsKept (s t : State) : Prop := ∀ q, t.reg q = s.reg q

/-- Every register but `r` is as before. -/
def RegsKeptBut (r : Reg) (s t : State) : Prop := ∀ q, q ≠ r → t.reg q = s.reg q

/-- Every byte of memory reads as before. -/
def MemKept (s t : State) : Prop := ∀ a, t.memRead a = s.memRead a

/-- Both flags are as before. -/
def FlagsKept (s t : State) : Prop := t.flag = s.flag ∧ t.halted = s.halted

/-- The sink and the observer are as before. -/
def PortsKept (s t : State) : Prop :=
  t.out = s.out ∧ t.sinkLimit = s.sinkLimit ∧ t.observing = s.observing ∧ t.trace = s.trace

/-- Everything but register `r` is as before. -/
def OnlyReg (r : Reg) (s t : State) : Prop :=
  RegsKeptBut r s t ∧ t.ip = s.ip ∧ MemKept s t ∧ FlagsKept s t ∧ PortsKept s t

/-- Everything but the condition flag is as before. -/
def OnlyFlag (s t : State) : Prop :=
  RegsKept s t ∧ t.ip = s.ip ∧ MemKept s t ∧ t.halted = s.halted ∧ PortsKept s t

/-- Everything but the instruction pointer is as before. -/
def OnlyIp (s t : State) : Prop :=
  RegsKept s t ∧ MemKept s t ∧ FlagsKept s t ∧ PortsKept s t

/-- After a step that emits nothing: the sink and the attachment of the observer are as before; the
observer's record is stated on its own (ObserverGetsTheStateAfterTheStep). -/
def SinkKept (s t : State) : Prop :=
  t.out = s.out ∧ t.sinkLimit = s.sinkLimit ∧ t.observing = s.observing

/-- A Running machine with opcode byte `b` at the pointer. -/
def At1 (s : State) (b : Byte) : Prop := s.halted = false ∧ s.memRead s.ip = b

/-- A Running machine with opcode byte `b` and operand byte `d` at the pointer. -/
def At2 (s : State) (b d : Byte) : Prop := At1 s b ∧ s.memRead (s.ip + 1) = d

/-- A Running machine with opcode byte `b` and the 16-bit operand `a`, low byte first, at the pointer. -/
def At3 (s : State) (b : Byte) (a : Addr) : Prop :=
  At1 s b ∧ (s.memRead (s.ip + 1)).toNat + 256 * (s.memRead (s.ip + 2)).toNat = a.toNat

/-- The 16-bit operand at the pointer, low byte first. -/
def operandAt (s : State) : Nat :=
  (s.memRead (s.ip + 1)).toNat + 256 * (s.memRead (s.ip + 2)).toNat

/-- The index of a register (R102), as a byte. -/
def regIndex : Reg → Byte
  | .A => 0
  | .B => 1
  | .C => 2
  | .D => 3

/-- The first byte of an operation's row of BA-REF (R330). -/
def aluBase : AluOp → Byte
  | .add => 0x30
  | .sub => 0x40
  | .and => 0x50
  | .xor => 0x60
  | .or => 0x70

/-- The register a variant writes (R105). -/
def regWritten : Variant → Option Reg
  | .ld r => some r
  | .alu _ d _ => some d
  | .rot _ r => some r
  | _ => none

/-- Whether a variant reads a register (R105). -/
def regRead : Variant → Reg → Bool
  | .st r, q => q == r
  | .alu _ d r, q => q == d || q == r
  | .rot _ r, q => q == r
  | .cmp kind r, q => q == presetSel cmpPreset kind r
  | .halt, _ => true
  | _, _ => false

/-- An outcome with its state, that of a SinkFault too, changed by `f`. -/
def mapState (f : State → State) : Result → Result
  | .next s => .next (f s)
  | .fault (.sinkFault b s) => .fault (.sinkFault b (f s))
  | .refused r => .refused r

/-- The state without its observer. -/
def forget (s : State) : State := { s with observing := false, trace := [] }

/-- Instructions executed one after another. -/
def execAll : List Instr → State → Result
  | [], s => .next s
  | i :: rest, s =>
    match exec i s with
    | .next t => execAll rest t
    | other => other

/-- The variant of the opcode byte at the pointer of a machine state. -/
def variantAt (P : Params) (m : MachineState) : Variant := P.opcodeMap (m.mem.read m.ip.toNat)

/-- The halt condition of R522, in the spec's words. -/
def AllOnesAndFlag (s : State) : Prop :=
  s.reg .A = 0xFF ∧ s.reg .B = 0xFF ∧ s.reg .C = 0xFF ∧ s.reg .D = 0xFF ∧ s.flag = true

end Sys2Proof.Frame

open Sys2Proof Sys2Proof.Machine Sys2Proof.Frame

/-! ### Primitives -/

/-- R112: advance(n) adds n modulo 65536, jump sets the pointer absolutely, and neither changes
anything else. -/
def Obligations.AdvanceAndJumpSetThePointer : Prop :=
  (∀ (s : State) (n : Nat), (s.advance n).ip.toNat = (s.ip.toNat + n) % 65536 ∧
    OnlyIp s (s.advance n)) ∧
  (∀ (s : State) (a : Addr), (s.jump a).ip = a ∧ OnlyIp s (s.jump a)) ∧
  (∀ s : State, s.ip.toNat = 65535 → (s.advance 1).ip.toNat = 0)

/-- The register file (R102, R103): a written register holds the written value, whatever the register
and the value; no other register and no other component changes. -/
def Obligations.EveryRegisterHoldsWhatIsWritten : Prop :=
  ∀ (s : State) (r : Reg) (v : Byte), (s.setReg r v).reg r = v ∧ OnlyReg r s (s.setReg r v)

/-- R210: a 2-byte read is little-endian and its second address wraps. -/
def Obligations.TwoByteReadIsLittleEndianAndWraps : Prop :=
  (∀ (s : State) (a : Addr), s.memRead a = s.mem.read a.toNat) ∧
  (∀ (s : State) (a b : Addr), b.toNat = (a.toNat + 1) % 65536 →
    (s.memRead16 a).toNat = (s.memRead b).toNat * 256 + (s.memRead a).toNat) ∧
  (∀ s : State, (s.memRead16 0xFFFF).toNat
    = (s.memRead 0x0000).toNat * 256 + (s.memRead 0xFFFF).toNat)

/-- R211: a byte write and a 2-byte write, in memory's canonical form. The two addresses differ, the
order of the two byte writes cannot be observed, and WIP is the only 2-byte write: any other
instruction leaves every byte as it was, but for the one byte of a store. -/
def Obligations.WritesChangeExactlyTheirBytes : Prop :=
  (∀ (s : State) (a b : Addr) (v : Byte), s.Inv →
    (s.memWrite a v).memRead b = if b = a then v else s.memRead b) ∧
  (∀ (s : State) (a b w : Addr), s.Inv →
    (b = a → ((s.memWrite16 a w).memRead b).toNat = w.toNat % 256) ∧
    (b = a + 1 → ((s.memWrite16 a w).memRead b).toNat = w.toNat / 256) ∧
    (b ≠ a → b ≠ a + 1 → (s.memWrite16 a w).memRead b = s.memRead b)) ∧
  (∀ a : Addr, a ≠ a + 1) ∧
  (∀ (s : State) (a w : Addr), s.Inv →
    (s.memWrite (a + 1) (hiByte w)).memWrite a (loByte w) = s.memWrite16 a w) ∧
  (∀ (s : State) (a : Addr), exec (.wip a) s = .next (s.memWrite16 a s.ip)) ∧
  (∀ (i : Instr) (s t : State), s.Inv → exec i s = .next t → (∀ a, i ≠ .wip a) →
    ∀ b, (∀ r a, i = Instr.st r a → b ≠ a) → t.memRead b = s.memRead b)

/-- R311: the low byte is fetched first, the pointer moves by 2, and each byte's address wraps. -/
def Obligations.FetchSixteenTakesLowByteFirst : Prop :=
  (∀ s : State, (fetch16 s).2 = s.advance 2 ∧
    (fetch16 s).1.toNat = (s.memRead s.ip).toNat + 256 * (s.memRead (s.ip + 1)).toNat) ∧
  (∀ s : State, s.ip = 0xFFFF →
    (fetch16 s).1.toNat = (s.memRead 0xFFFF).toNat + 256 * (s.memRead 0x0000).toNat)

/-! ### Encoding -/

/-- A few words written out from the byte table of R330. -/
def Obligations.WrittenOutWordsDecode : Prop :=
  decode [0x04, 0x34, 0x12] = .ok (.ldA 0x1234, []) ∧
  decode [0x0A, 0x06, 0x00] = .ok (.stC 0x0006, []) ∧
  decode [0x5B] = .ok (.andCD, []) ∧
  decode [0x0E, 0x0A, 0x01] = .ok (.br 0x0A, [0x01]) ∧
  decode [0x19, 0x00, 0x03] = .ok (.cmpeqB 0x0300, []) ∧
  decode [0x22, 0x01] = .ok (.rorC 0x01, []) ∧
  decode [0x0F, 0x02, 0x01] = .ok (.out 0x0102, []) ∧
  decode [0xFE, 0xFF] = .ok (.nop, [0xFF]) ∧
  decode [0xFF] = .ok (.halt, [])

/-- Decoding what the encoder writes gives the instruction back, every operand at every value, and
leaves the bytes after it. -/
def Obligations.DecodeOfEncodeIsTheInstruction : Prop :=
  ∀ (i : Instr) (rest : List Byte), decode (encode i ++ rest) = .ok (i, rest)

/-- Encoding what was decoded gives the bytes back, where the opcode byte is explicitly assigned. -/
def Obligations.EncodeOfDecodeIsTheBytes : Prop :=
  ∀ (b : Byte) (bytes rest : List Byte) (i : Instr), (baRefAssign b).isSome →
    decode (b :: bytes) = .ok (i, rest) → encode i ++ rest = b :: bytes

/-- Decoding is total on three bytes and takes 1, 2 or 3 of them, a number the opcode byte alone
fixes (R300, R303); it fails only on a list shorter than that. -/
def Obligations.EveryOpcodeByteDecodes : Prop :=
  (∀ b : Byte, 1 ≤ lengthOf b ∧ lengthOf b ≤ 3) ∧
  (∀ (b : Byte) (bytes : List Byte), lengthOf b ≤ bytes.length + 1 →
    ∃ i, decode (b :: bytes) = .ok (i, (b :: bytes).drop (lengthOf b))) ∧
  (∀ (b : Byte) (bytes : List Byte), bytes.length + 1 < lengthOf b →
    decode (b :: bytes) = .error (.missingOperand b))

/-- The byte table of R330 in full: every assigned byte and every unassigned one. -/
def Obligations.OpcodeBytesAreThoseOfTheTable : Prop :=
  (variantOf 0x00 = .nop ∧ variantOf 0x01 = .setf ∧ variantOf 0x02 = .clrf ∧
    variantOf 0x03 = .jmp ∧ variantOf 0x0C = .jr ∧ variantOf 0x0D = .wip ∧
    variantOf 0x0E = .br ∧ variantOf 0x0F = .out ∧ variantOf 0xFF = .halt) ∧
  (∀ r, variantOf (0x04 + regIndex r) = .ld r ∧ variantOf (0x08 + regIndex r) = .st r ∧
    variantOf (0x10 + regIndex r) = .cmp .lt r ∧ variantOf (0x14 + regIndex r) = .cmp .gt r ∧
    variantOf (0x18 + regIndex r) = .cmp .eq r ∧ variantOf (0x1C + regIndex r) = .rot .left r ∧
    variantOf (0x20 + regIndex r) = .rot .right r) ∧
  (∀ op d r, variantOf (aluBase op + 4 * regIndex d + regIndex r)
    = if d = r then .nop else .alu op d r) ∧
  (∀ b : Byte, 0x24 ≤ b.toNat → b.toNat ≤ 0x2F → variantOf b = .nop) ∧
  (∀ b : Byte, 0x80 ≤ b.toNat → b.toNat ≤ 0xFE → variantOf b = .nop)

/-! ### The step -/

/-- A step runs the decoded instruction (R310): Halted, nothing; Running, the three bytes at the
pointer decode to an instruction and the step is `exec` of it in the state whose pointer has
passed the bytes the decoder took, then the observer. -/
def Obligations.StepRunsTheDecodedInstruction : Prop :=
  (∀ s : State, s.halted = true → step s = .next s) ∧
  (∀ s : State, s.halted = false →
    ∃ i rest, decode [s.memRead s.ip, s.memRead (s.ip + 1), s.memRead (s.ip + 2)] = .ok (i, rest)) ∧
  (∀ (s : State) (i : Instr) (rest : List Byte), s.halted = false →
    decode [s.memRead s.ip, s.memRead (s.ip + 1), s.memRead (s.ip + 2)] = .ok (i, rest) →
    step s = complete (s.memRead s.ip) i.variant (exec i (s.advance (3 - rest.length)))) ∧
  (∀ s : State, s.status = .halted ↔ s.halted = true)

/-- The machine is the parametric machine at the reference parameters (R10, R11): BA-REF and
INTENDED, the spec's reference values (D1, D2, D3). -/
def Obligations.StepIsTheParametricStepAtReference : Prop :=
  ∀ s : State, step s = paramStep baRef s

/-- The invariant: every step, a SinkFault's state too, keeps memory in its canonical form. -/
def Obligations.StepKeepsMemoryCanonical : Prop :=
  ∀ s : State, s.Inv →
    (∀ t, step s = .next t → t.Inv) ∧ (∀ b t, step s = .fault (.sinkFault b t) → t.Inv)

/-- The all-zero construction (R150, R700): the state after reset, which meets the invariant. The
sink that accepts every byte and the absent observer are the model's choice (log 13, 14). -/
def Obligations.ResetIsAllZero : Prop :=
  (∀ r, State.reset.reg r = 0) ∧ State.reset.ip = 0 ∧ (∀ a, State.reset.memRead a = 0) ∧
  State.reset.flag = false ∧ State.reset.halted = false ∧ State.reset.out = [] ∧
  State.reset.sinkLimit = none ∧ State.reset.observing = false ∧ State.reset.trace = [] ∧
  State.reset.Inv

/-- Image construction (R702): exactly the images of 65536 bytes construct a CORE; image byte i is
`mem[i]`, every other component is as after reset, and memory is canonical. -/
def Obligations.ImageConstructionLoadsEveryByte : Prop :=
  ∀ image : List Byte,
    (image.length ≠ 65536 → constructImage image = none) ∧
    (image.length = 65536 → ∃ s, constructImage image = some s ∧ s.Inv ∧
      (∀ a : Addr, some (s.memRead a) = image[a.toNat]?) ∧
      { s with mem := [] } = State.reset)

/-- Random construction (R701): the n-th byte drawn is at address n; bytes after the 65536th are not
used, and a source that gives fewer constructs no CORE (I7). -/
def Obligations.RandomConstructionFillsInOrder : Prop :=
  ∀ draws : List Byte,
    (draws.length < 65536 → constructRandom draws = none) ∧
    (65536 ≤ draws.length → ∃ s, constructRandom draws = some s ∧ s.Inv ∧
      (∀ a : Addr, some (s.memRead a) = draws[a.toNat]?) ∧
      { s with mem := [] } = State.reset)

/-- The bytes that `withFetchWord` places are the ones the very next step runs. -/
def Obligations.PlacedWordIsTheNextInstruction : Prop :=
  ∀ (s : State) (nbits w : Nat), s.Inv → ∃ i b n,
    decodeTableWord nbits w = some i ∧
    b = BitVec.ofNat 8 (w % 2 ^ nbits) ∧ n = (encode i).length ∧
    step (s.withFetchWord nbits w)
      = complete b i.variant (exec i ((s.withFetchWord nbits w).advance n))

/-! ### The whole machine -/

/-- R121: only SETF, CLRF, BR and the comparisons can change F, each as the table says. -/
def Obligations.FlagChangesOnlyAsTheTableSays : Prop :=
  (∀ s t : State, exec .setf s = .next t → t.flag = true) ∧
  (∀ s t : State, exec .clrf s = .next t → t.flag = false) ∧
  (∀ (kind : CmpKind) (r : Reg) (a : Addr) (s t : State), exec (Instr.cmp kind r a) s = .next t →
    (presetRel cmpPreset kind (s.reg (presetSel cmpPreset kind r)) (s.memRead a) = true →
      t.flag = true) ∧
    (presetRel cmpPreset kind (s.reg (presetSel cmpPreset kind r)) (s.memRead a) = false →
      t.flag = s.flag)) ∧
  (∀ (d : Byte) (s t : State), exec (.br d) s = .next t → t.flag = false) ∧
  (∀ (i : Instr) (s t : State), exec i s = .next t → t.flag ≠ s.flag →
    i = .setf ∨ i = .clrf ∨ (∃ d, i = .br d) ∨ ∃ kind r a, i = Instr.cmp kind r a)

/-- R124: over whole steps, F once true becomes false only in a CLRF or a BR, and each of them clears
it; any number of comparisons, failing ones included, leaves it true. -/
def Obligations.FlagIsAOneShotTrigger : Prop :=
  (∀ s t : State, step s = .next t → s.flag = true → t.flag = false →
    variantOf (s.memRead s.ip) = .clrf ∨ variantOf (s.memRead s.ip) = .br) ∧
  (∀ s t : State, s.halted = false → step s = .next t →
    variantOf (s.memRead s.ip) = .clrf ∨ variantOf (s.memRead s.ip) = .br → t.flag = false) ∧
  (∀ (cs : List (CmpKind × Reg × Addr)) (s t : State), s.flag = true →
    execAll (cs.map fun c => Instr.cmp c.1 c.2.1 c.2.2) s = .next t → t.flag = true)

/-- R486: after a sequence of comparisons F is true exactly if it was before or one of them held;
nothing else changes, so each is decided in the state before the sequence. -/
def Obligations.ComparisonsAccumulate : Prop :=
  ∀ (cs : List (CmpKind × Reg × Addr)) (s : State), ∃ t,
    execAll (cs.map fun c => Instr.cmp c.1 c.2.1 c.2.2) s = .next t ∧
    (t.flag = true ↔ s.flag = true ∨ ∃ c ∈ cs,
      presetRel cmpPreset c.1 (s.reg (presetSel cmpPreset c.1 c.2.1)) (s.memRead c.2.2) = true) ∧
    OnlyFlag s t

/-- R105, the registers written: LD, ROL, ROR and the ALU operations write the one register of the
table, and no instruction writes any other. -/
def Obligations.RegistersChangeOnlyAsTheTableSays : Prop :=
  ∀ (i : Instr) (s t : State), exec i s = .next t →
    ∀ q, regWritten i.variant ≠ some q → t.reg q = s.reg q

/-- R105, the registers read: a register an instruction does not read has no influence on what it
does, but that it keeps its own value where the instruction does not write it. -/
def Obligations.UnreadRegistersHaveNoInfluence : Prop :=
  ∀ (i : Instr) (s : State) (q : Reg) (v : Byte), regRead i.variant q = false →
    (regWritten i.variant = some q → exec i (s.setReg q v) = exec i s) ∧
    (regWritten i.variant ≠ some q →
      exec i (s.setReg q v) = mapState (fun t => t.setReg q v) (exec i s))

/-- R114: where each instruction leaves the pointer, over whole steps. -/
def Obligations.PointerAfterEachInstruction : Prop :=
  ∀ s t : State, s.halted = false → step s = .next t →
    t.ip.toNat =
      match variantOf (s.memRead s.ip) with
      | .jmp => operandAt s
      | .jr => (s.ip.toNat + 2 + (s.memRead (s.ip + 1)).toNat) % 65536
      | .br =>
        if s.flag then (s.ip.toNat + 2 + (s.memRead (s.ip + 1)).toNat) % 65536
        else (s.ip.toNat + 2) % 65536
      | .rot _ _ => (s.ip.toNat + 2) % 65536
      | .ld _ | .st _ | .wip | .out | .cmp _ _ => (s.ip.toNat + 3) % 65536
      | .nop | .setf | .clrf | .alu _ _ _ | .halt => (s.ip.toNat + 1) % 65536

/-- Over whole steps, a byte of memory changes only where ST or WIP stores (R202, R223): the address
stored to is the 16-bit operand at the pointer, and for WIP the address after it too. -/
def Obligations.MemoryChangesOnlyWhereStored : Prop :=
  ∀ s t : State, s.Inv → step s = .next t → ∀ a : Addr, t.memRead a ≠ s.memRead a →
    s.halted = false ∧
    ((∃ r, variantOf (s.memRead s.ip) = .st r ∧ a.toNat = operandAt s) ∨
     (variantOf (s.memRead s.ip) = .wip ∧
       (a.toNat = operandAt s ∨ a.toNat = (operandAt s + 1) % 65536)))

/-- Over whole steps, the output grows only by OUT, by the one byte at OUT's operand (R142, R223). -/
def Obligations.OutputGrowsOnlyByOut : Prop :=
  ∀ s t : State, step s = .next t → t.out ≠ s.out →
    variantOf (s.memRead s.ip) = .out ∧
    ∃ a : Addr, a.toNat = operandAt s ∧ t.out = s.out ++ [s.memRead a]

/-- R131: H never falls, over any number of steps, and only HALT with its condition satisfied
writes it. -/
def Obligations.HaltFlagNeverFalls : Prop :=
  (∀ (n : Nat) (s t : State), Sys2Proof.core.run n s = .next t → s.halted = true →
    t.halted = true) ∧
  (∀ s t : State, step s = .next t → s.halted = false → t.halted = true →
    variantOf (s.memRead s.ip) = .halt ∧ AllOnesAndFlag s)

/-- A Halted machine stays exactly as it is, however many steps are requested (R132, the spec's
decision D12). -/
def Obligations.HaltedMachineStaysAsItIs : Prop :=
  ∀ (n : Nat) (s : State), s.halted = true → Sys2Proof.core.run n s = .next s

/-- R523, for every admissible opcode map, ALU pair set and compare parameter: a step of a Running
machine reaches Halted exactly when it executes 0xFF in the state of R522. -/
def Obligations.OnlyByteFFReachesHalted : Prop :=
  ∀ P : Params, P.Admissible → ∀ s t : State, s.halted = false → paramStep P s = .next t →
    (t.halted = true ↔ s.memRead s.ip = 0xFF ∧ AllOnesAndFlag s)

/-- For every opcode map: with a sink that accepts (log 13) every step completes, so no byte traps
(R340), and an unassigned byte only moves the pointer by 1 (R340, R400) and is shown to an observer
as NOP (R143, the spec's decision D14, log 14). That a rejecting sink stops an OUT alone is said by
StepIsTheStepOfTheFiveComponents. -/
def Obligations.NoByteTrapsAndUnassignedBytesAreNop : Prop :=
  (∀ (P : Params) (s : State), s.sinkAccepts = true → ∃ t, paramStep P s = .next t) ∧
  (∀ (P : Params) (s : State), s.halted = false → P.assign (s.memRead s.ip) = none →
    paramStep P s = .next ((s.advance 1).observe (s.memRead s.ip) .nop))

/-- The outcomes of a step (R603): it completes, or it is an OUT of a Running machine whose sink
rejects the byte; it is never refused. -/
def Obligations.StepCompletesUnlessTheSinkRejects : Prop :=
  ∀ s : State, (∃ t, step s = .next t) ∨
    (s.halted = false ∧ variantOf (s.memRead s.ip) = .out ∧ s.sinkAccepts = false ∧
      ∃ a : Addr, a.toNat = operandAt s ∧
        step s = .fault (.sinkFault (s.memRead a) (s.advance 3)))

/-- The observer has no effect (R143): with and without it a step has the same outcome, but for the
observer's own fields. -/
def Obligations.ObserverHasNoEffect : Prop :=
  ∀ s : State, mapState forget (step s) = step (forget s)

/-- What the observer is given (R143, the spec's decision D14): after a completed step, one record
with the values after the step, the opcode byte and its variant; without an observer, or Halted,
nothing. -/
def Obligations.ObserverGetsTheStateAfterTheStep : Prop :=
  (∀ s t : State, step s = .next t → s.halted = false → s.observing = true →
    t.trace = s.trace ++
      [⟨t.regs, t.ip, t.flag, t.halted, s.memRead s.ip, variantOf (s.memRead s.ip)⟩]) ∧
  (∀ s t : State, step s = .next t → s.halted = true ∨ s.observing = false → t.trace = s.trace)

/-- A store to the updated pointer is the next opcode (R233, R234): after ST to the address right
after it, the next fetch takes the stored byte. -/
def Obligations.StoreIsTheNextOpcode : Prop :=
  ∀ (r : Reg) (s : State), s.Inv → At3 s (0x08 + regIndex r) (s.ip + 3) →
    ∃ t, step s = .next t ∧ (fetch t).opcode = s.reg r ∧
      (fetch t).instr.variant = variantOf (s.reg r)

/-- The ends of a run (R740, R146): it ends Halted exactly if its final state is Halted, and a run
that ended Halted or with a SinkFault ends the same way under every higher ceiling. -/
def Obligations.RunsEndInOneWay : Prop :=
  ∀ (n : Nat) (s : State),
    ((runUpTo n s).kind = .halted ↔ (runUpTo n s).final.halted = true) ∧
    ((runUpTo n s).kind ≠ .stopped → ∀ m, runUpTo (n + m) s = runUpTo n s) ∧
    ((runUpTo n s).kind = .stopped → Sys2Proof.core.run n s = .next (runUpTo n s).final)

/-! ### No-op, load, store, flag -/

/-- R400: NOP (0x00 and every unassigned byte) changes nothing but the pointer. Covers `nop`. -/
def Obligations.NopOnlyMovesThePointer : Prop :=
  (∀ s : State, exec .nop s = .next s) ∧
  (∀ (s : State) (b : Byte), At1 s b → b = 0x00 ∨ baRefAssign b = none →
    ∃ t, step s = .next t ∧ t.ip = s.ip + 1 ∧ RegsKept s t ∧ MemKept s t ∧ FlagsKept s t ∧
      SinkKept s t)

/-- R401: LD copies the byte at its address into its register and changes nothing else. Covers
`ldA`, `ldB`, `ldC`, `ldD`. -/
def Obligations.LoadCopiesTheByte : Prop :=
  (∀ (r : Reg) (a : Addr) (s : State), ∃ t, exec (Instr.ld r a) s = .next t ∧
    t.reg r = s.memRead a ∧ OnlyReg r s t) ∧
  (∀ (r : Reg) (a : Addr) (s : State), At3 s (0x04 + regIndex r) a →
    ∃ t, step s = .next t ∧ t.reg r = s.memRead a ∧ t.ip = s.ip + 3 ∧ RegsKeptBut r s t ∧
      MemKept s t ∧ FlagsKept s t ∧ SinkKept s t)

/-- R402: ST writes its register to the byte at its address and changes nothing else, wherever that
byte is (its own bytes and the next opcode included). Covers `stA`, `stB`, `stC`, `stD`. -/
def Obligations.StoreWritesTheByte : Prop :=
  (∀ (r : Reg) (a : Addr) (s : State), s.Inv → ∃ t, exec (Instr.st r a) s = .next t ∧
    t.memRead a = s.reg r ∧ (∀ b, b ≠ a → t.memRead b = s.memRead b) ∧
    RegsKept s t ∧ t.ip = s.ip ∧ FlagsKept s t ∧ PortsKept s t) ∧
  (∀ (r : Reg) (a : Addr) (s : State), s.Inv → At3 s (0x08 + regIndex r) a →
    ∃ t, step s = .next t ∧ t.memRead a = s.reg r ∧ (∀ b, b ≠ a → t.memRead b = s.memRead b) ∧
      t.ip = s.ip + 3 ∧ RegsKept s t ∧ FlagsKept s t ∧ SinkKept s t)

/-- R420 and R421: SETF makes F true and CLRF makes it false, whatever it was; nothing else changes.
Covers `setf`, `clrf`. -/
def Obligations.SetAndClearFlag : Prop :=
  (∀ s : State, ∃ t, exec .setf s = .next t ∧ t.flag = true ∧ OnlyFlag s t) ∧
  (∀ s : State, ∃ t, exec .clrf s = .next t ∧ t.flag = false ∧ OnlyFlag s t) ∧
  (∀ s : State, At1 s 0x01 → ∃ t, step s = .next t ∧ t.flag = true ∧ t.ip = s.ip + 1 ∧
    RegsKept s t ∧ MemKept s t ∧ t.halted = false ∧ SinkKept s t) ∧
  (∀ s : State, At1 s 0x02 → ∃ t, step s = .next t ∧ t.flag = false ∧ t.ip = s.ip + 1 ∧
    RegsKept s t ∧ MemKept s t ∧ t.halted = false ∧ SinkKept s t)

/-! ### ALU -/

/-- ADD and SUB modulo 256 (R441, R442; no flag: the spec's decision D20). Covers `addAB` to `addDC`
and `subAB` to `subDC`: every pair with d ≠ r. -/
def Obligations.AddAndSubtractWrap : Prop :=
  ∀ (d r : Reg) (s : State), d ≠ r →
    (∃ t, exec (Instr.alu .add d r) s = .next t ∧
      (t.reg d).toNat = ((s.reg d).toNat + (s.reg r).toNat) % 256 ∧ OnlyReg d s t) ∧
    (∃ t, exec (Instr.alu .sub d r) s = .next t ∧
      ((t.reg d).toNat : Int) = ((s.reg d).toNat - (s.reg r).toNat : Int) % 256 ∧ OnlyReg d s t)

/-- AND, XOR and OR bit by bit (R443 to R445, truth tables G1; no flag: D20). Covers `andAB` to
`andDC`, `xorAB` to `xorDC`, `orAB` to `orDC`: every pair with d ≠ r. -/
def Obligations.LogicalOperationsActBitByBit : Prop :=
  ∀ (d r : Reg) (s : State), d ≠ r →
    (∃ t, exec (Instr.alu .and d r) s = .next t ∧ OnlyReg d s t ∧ ∀ k < 8,
      (t.reg d).getLsbD k = ((s.reg d).getLsbD k && (s.reg r).getLsbD k)) ∧
    (∃ t, exec (Instr.alu .xor d r) s = .next t ∧ OnlyReg d s t ∧ ∀ k < 8,
      (t.reg d).getLsbD k = ((s.reg d).getLsbD k != (s.reg r).getLsbD k)) ∧
    (∃ t, exec (Instr.alu .or d r) s = .next t ∧ OnlyReg d s t ∧ ∀ k < 8,
      (t.reg d).getLsbD k = ((s.reg d).getLsbD k || (s.reg r).getLsbD k))

/-- R440 on every pair, under any parameters: the pairs with d = s, which BA-REF does not expose,
double, clear or keep the register. -/
def Obligations.AluIsDefinedOnEqualRegisters : Prop :=
  ∀ (P : Params) (op : AluOp) (d : Reg) (lo hi : Byte) (s : State),
    ∃ t, execVariant P (.alu op d d) lo hi s = .next t ∧ OnlyReg d s t ∧
      (t.reg d).toNat =
        match op with
        | .add => (2 * (s.reg d).toNat) % 256
        | .sub => 0
        | .and => (s.reg d).toNat
        | .xor => 0
        | .or => (s.reg d).toNat

/-! ### Control transfer -/

/-- R460: JMP sets the pointer to its operand and changes nothing else. Covers `jmp`. -/
def Obligations.JumpSetsThePointer : Prop :=
  (∀ (a : Addr) (s : State), ∃ t, exec (.jmp a) s = .next t ∧ t.ip = a ∧ OnlyIp s t) ∧
  (∀ (a : Addr) (s : State), At3 s 0x03 a → ∃ t, step s = .next t ∧ t.ip = a ∧
    RegsKept s t ∧ MemKept s t ∧ FlagsKept s t ∧ SinkKept s t)

/-- JR adds its unsigned displacement to the pointer after it, modulo 65536, and neither reads nor
writes F (R462; the spec's decision D5). Covers `jr`. -/
def Obligations.RelativeJumpGoesForward : Prop :=
  (∀ (d : Byte) (s : State), ∃ t, exec (.jr d) s = .next t ∧
    t.ip.toNat = (s.ip.toNat + d.toNat) % 65536 ∧ OnlyIp s t) ∧
  (∀ (d : Byte) (s : State), At2 s 0x0C d → ∃ t, step s = .next t ∧
    t.ip.toNat = (s.ip.toNat + 2 + d.toNat) % 65536 ∧
    RegsKept s t ∧ MemKept s t ∧ FlagsKept s t ∧ SinkKept s t)

/-- R466: BR with F true clears F and adds its unsigned displacement to the pointer after it; with F
false it does nothing more. Covers `br`. -/
def Obligations.BranchConsumesTheFlag : Prop :=
  (∀ (d : Byte) (s : State), s.flag = true → ∃ t, exec (.br d) s = .next t ∧
    t.flag = false ∧ t.ip.toNat = (s.ip.toNat + d.toNat) % 65536 ∧
    RegsKept s t ∧ MemKept s t ∧ t.halted = s.halted ∧ PortsKept s t) ∧
  (∀ (d : Byte) (s : State), s.flag = false → exec (.br d) s = .next s) ∧
  (∀ (d : Byte) (s : State), At2 s 0x0E d → ∃ t, step s = .next t ∧ t.flag = false ∧
    t.ip.toNat = (s.ip.toNat + 2 + if s.flag then d.toNat else 0) % 65536 ∧
    RegsKept s t ∧ MemKept s t ∧ t.halted = false ∧ SinkKept s t)

/-- R464: WIP stores the pointer after its operand, low byte at its address and high byte at the next
(0x0000 after 0xFFFF), and changes nothing else. Covers `wip`. -/
def Obligations.WriteInstructionPointerStoresIt : Prop :=
  (∀ (a : Addr) (s : State), s.Inv → ∃ t, exec (.wip a) s = .next t ∧
    (t.memRead a).toNat = s.ip.toNat % 256 ∧ (t.memRead (a + 1)).toNat = s.ip.toNat / 256 ∧
    (∀ b, b ≠ a → b ≠ a + 1 → t.memRead b = s.memRead b) ∧
    RegsKept s t ∧ t.ip = s.ip ∧ FlagsKept s t ∧ PortsKept s t) ∧
  (∀ (a : Addr) (s : State), s.Inv → At3 s 0x0D a → ∃ t, step s = .next t ∧ t.ip = s.ip + 3 ∧
    (t.memRead a).toNat = t.ip.toNat % 256 ∧ (t.memRead (a + 1)).toNat = t.ip.toNat / 256 ∧
    (∀ b, b ≠ a → b ≠ a + 1 → t.memRead b = s.memRead b) ∧
    RegsKept s t ∧ FlagsKept s t ∧ SinkKept s t)

/-! ### Comparisons -/

/-- CMPLT, CMPGT and CMPEQ on unsigned values (R483 to R485 under INTENDED, the spec's reference
preset D3, log 3; unsigned: D4): F becomes true if the relation holds, else stays; nothing else
changes. Covers `cmpltA` to `cmpltD`, `cmpgtA` to `cmpgtD`, `cmpeqA` to `cmpeqD`. -/
def Obligations.ComparisonsSetTheFlag : Prop :=
  ∀ (r : Reg) (a : Addr) (s : State),
    (∃ t, exec (Instr.cmp .lt r a) s = .next t ∧ OnlyFlag s t ∧
      (t.flag = true ↔ s.flag = true ∨ (s.reg r).toNat < (s.memRead a).toNat)) ∧
    (∃ t, exec (Instr.cmp .gt r a) s = .next t ∧ OnlyFlag s t ∧
      (t.flag = true ↔ s.flag = true ∨ (s.memRead a).toNat < (s.reg r).toNat)) ∧
    (∃ t, exec (Instr.cmp .eq r a) s = .next t ∧ OnlyFlag s t ∧
      (t.flag = true ↔ s.flag = true ∨ (s.reg r).toNat = (s.memRead a).toNat))

/-- R480 under any parameters: F becomes true if `CMP_REL` holds between the register `CMP_SEL`
selects and the memory byte, else stays; nothing else changes. -/
def Obligations.ComparisonFollowsItsParameters : Prop :=
  ∀ (P : Params) (kind : CmpKind) (r : Reg) (lo hi : Byte) (a : Addr) (s : State),
    a.toNat = lo.toNat + 256 * hi.toNat →
    ∃ t, execVariant P (.cmp kind r) lo hi s = .next t ∧ OnlyFlag s t ∧
      (t.flag = true ↔
        s.flag = true ∨ P.cmpRel kind (s.reg (P.cmpSel kind r)) (s.memRead a) = true)

/-- R481, R482: what the two presets do on the cases where they differ. OBSERVED compares A in the
less-than and greater-than comparisons of B and C, and tests greater-than in every equal-to
comparison. -/
def Obligations.ObservedPresetDiffersAsTheTableSays : Prop :=
  ∀ (r : Reg) (lo hi : Byte) (a : Addr) (s : State), s.flag = false →
    a.toNat = lo.toNat + 256 * hi.toNat →
    (∃ t, execVariant (baRefWith .observed) (.cmp .lt r) lo hi s = .next t ∧
      (t.flag = true ↔
        (s.reg (if r = .B ∨ r = .C then .A else r)).toNat < (s.memRead a).toNat)) ∧
    (∃ t, execVariant (baRefWith .observed) (.cmp .gt r) lo hi s = .next t ∧
      (t.flag = true ↔
        (s.memRead a).toNat < (s.reg (if r = .B ∨ r = .C then .A else r)).toNat)) ∧
    (∃ t, execVariant (baRefWith .observed) (.cmp .eq r) lo hi s = .next t ∧
      (t.flag = true ↔ (s.memRead a).toNat < (s.reg r).toNat)) ∧
    (∃ t, execVariant (baRefWith .intended) (.cmp .eq r) lo hi s = .next t ∧
      (t.flag = true ↔ (s.memRead a).toNat = (s.reg r).toNat))

/-! ### Rotates -/

/-- ROL moves bit i to bit (i + n) mod 8 and ROR moves bit (i + n) mod 8 to bit i; no flag, nothing
else changes (R500 to R502; count byte D6, direction G2, flags D20). Covers `rolA` to `rolD` and
`rorA` to `rorD`. -/
def Obligations.RotatesMoveEveryBit : Prop :=
  ∀ (r : Reg) (n : Byte) (s : State),
    (∃ t, exec (Instr.rot .left r n) s = .next t ∧ OnlyReg r s t ∧
      ∀ i < 8, (t.reg r).getLsbD ((i + n.toNat) % 8) = (s.reg r).getLsbD i) ∧
    (∃ t, exec (Instr.rot .right r n) s = .next t ∧ OnlyReg r s t ∧
      ∀ i < 8, (t.reg r).getLsbD i = (s.reg r).getLsbD ((i + n.toNat) % 8))

/-- ROR by n equals ROL by (8 − n mod 8) mod 8, undoes ROL by n, and a count that is 0 modulo 8
changes nothing (R500, R502). -/
def Obligations.RotateRightUndoesRotateLeft : Prop :=
  ∀ (v : Byte) (n : Nat),
    rotr8 v n = rotl8 v ((8 - n % 8) % 8) ∧ rotr8 (rotl8 v n) n = v ∧
    (n % 8 = 0 → rotl8 v n = v ∧ rotr8 v n = v)

/-! ### Output and halt -/

/-- OUT with a sink that accepts appends the byte at its address to the output and changes nothing
else (R520; the operand is the spec's decision D7). Covers `out`. -/
def Obligations.OutEmitsTheByte : Prop :=
  (∀ (a : Addr) (s : State),
    s.sinkLimit = none ∨ (∃ n, s.sinkLimit = some n ∧ s.out.length < n) →
    ∃ t, exec (.out a) s = .next t ∧ t.out = s.out ++ [s.memRead a] ∧
      RegsKept s t ∧ t.ip = s.ip ∧ MemKept s t ∧ FlagsKept s t ∧
      t.sinkLimit = s.sinkLimit ∧ t.observing = s.observing ∧ t.trace = s.trace) ∧
  (∀ (a : Addr) (s : State), At3 s 0x0F a →
    s.sinkLimit = none ∨ (∃ n, s.sinkLimit = some n ∧ s.out.length < n) →
    ∃ t, step s = .next t ∧ t.out = s.out ++ [s.memRead a] ∧ t.ip = s.ip + 3 ∧
      RegsKept s t ∧ MemKept s t ∧ FlagsKept s t ∧ t.sinkLimit = s.sinkLimit)

/-- OUT with a sink that rejects ends the step in SinkFault with the rejected byte; the state is that
after a successful OUT without the byte in the output (R521; the spec's decision D13), and a run
takes no further step. -/
def Obligations.RejectedOutputIsASinkFault : Prop :=
  (∀ (a : Addr) (s : State) (n : Nat), s.sinkLimit = some n → n ≤ s.out.length →
    exec (.out a) s = .fault (.sinkFault (s.memRead a) s)) ∧
  (∀ (a : Addr) (s : State) (n m : Nat), At3 s 0x0F a → s.sinkLimit = some n →
    n ≤ s.out.length →
    step s = .fault (.sinkFault (s.memRead a) (s.advance 3)) ∧
    runUpTo (m + 1) s = ⟨.sinkFault, s.advance 3⟩)

/-- HALT makes H true exactly when all four registers are 0xFF and F is true, and changes nothing
else; a failed attempt still moves the pointer by 1 (R522; the spec's decision D8). Covers `halt`. -/
def Obligations.HaltNeedsAllOnesAndTheFlag : Prop :=
  (∀ s : State, ∃ t, exec .halt s = .next t ∧
    (t.halted = true ↔ s.halted = true ∨ AllOnesAndFlag s) ∧
    RegsKept s t ∧ t.ip = s.ip ∧ MemKept s t ∧ t.flag = s.flag ∧ PortsKept s t) ∧
  (∀ s : State, At1 s 0xFF → ∃ t, step s = .next t ∧ (t.halted = true ↔ AllOnesAndFlag s) ∧
    t.ip = s.ip + 1 ∧ RegsKept s t ∧ MemKept s t ∧ t.flag = s.flag ∧ SinkKept s t)

/-! ### The five components and their surroundings -/

/-- The step relation of R101, under any parameters: a step is the step of the five components, with
the sink's answer as its one parameter; the surroundings take the byte it emits, and the observer's
record. Only an OUT of a Running machine depends on the answer: it emits a byte when the sink
accepts and faults when it rejects; every other step completes and emits nothing, whatever the
answer (how the surroundings are kept is the model's choice, log 13, 14). -/
def Obligations.StepIsTheStepOfTheFiveComponents : Prop :=
  (∀ (P : Params) (s : State), s.halted = false →
    paramStep P s = complete (s.memRead s.ip) (variantAt P s.toMachineState)
      (s.toSurroundings.receive (coreStep P s.sinkAccepts s.toMachineState))) ∧
  (∀ (P : Params) (accepts : Bool) (m : MachineState), m.halted = true →
    coreStep P accepts m = .next (m, none)) ∧
  (∀ (P : Params) (m : MachineState), m.halted = false → variantAt P m = .out →
    ∃ m' b, coreStep P true m = .next (m', some b) ∧ coreStep P false m = .fault (m', b)) ∧
  (∀ (P : Params) (m : MachineState), variantAt P m ≠ .out →
    ∃ m', ∀ accepts, coreStep P accepts m = .next (m', none))
end

