-- ==== Sys2Proof/Laws/Bits.lean ====
section
/-! SUPPORT. The laws of splitting a 16-bit value into bytes and joining bytes (R20, R212). -/

namespace Sys2Proof

theorem getLsbD_word16 (hi lo : Byte) (i : Nat) :
    (word16 hi lo).getLsbD i = if i < 8 then lo.getLsbD i else hi.getLsbD (i - 8) :=
  (BitVec.getLsbD_append (x := hi) (y := lo) (i := i)).trans (by split <;> rfl)

theorem getLsbD_loByte (w : Addr) (i : Nat) :
    (loByte w).getLsbD i = (decide (i < 8) && w.getLsbD i) := by
  simp [loByte]

theorem getLsbD_hiByte (w : Addr) (i : Nat) :
    (hiByte w).getLsbD i = (decide (i < 8) && w.getLsbD (8 + i)) := by
  simp [hiByte]

@[simp] theorem loByte_word16 (hi lo : Byte) : loByte (word16 hi lo) = lo := by
  apply BitVec.eq_of_getLsbD_eq
  intro i h
  rw [getLsbD_loByte, getLsbD_word16]
  simp [h]

@[simp] theorem hiByte_word16 (hi lo : Byte) : hiByte (word16 hi lo) = hi := by
  apply BitVec.eq_of_getLsbD_eq
  intro i h
  rw [getLsbD_hiByte, getLsbD_word16]
  simp [h]

@[simp] theorem word16_hiByte_loByte (w : Addr) : word16 (hiByte w) (loByte w) = w := by
  apply BitVec.eq_of_getLsbD_eq
  intro i h
  rw [getLsbD_word16, getLsbD_loByte, getLsbD_hiByte]
  by_cases h8 : i < 8
  · simp only [h8, if_true, decide_true, Bool.true_and]
  · simp only [h8, if_false, show i - 8 < 8 by omega, decide_true, Bool.true_and,
      show 8 + (i - 8) = i by omega]

/-- `hi ++ lo` as a number: `hi * 256 + lo`. -/
theorem word16_toNat (hi lo : Byte) : (word16 hi lo).toNat = hi.toNat * 256 + lo.toNat := by
  have h : (word16 hi lo).toNat = hi.toNat <<< 8 ||| lo.toNat := BitVec.toNat_append hi lo
  rw [h, ← Nat.shiftLeft_add_eq_or_of_lt lo.isLt, Nat.shiftLeft_eq]

end Sys2Proof
end

