-- ==== Sys2Proof/Laws/Decode.lean ====
section
/-! SUPPORT. What the decoder reads: an opcode byte fixes the variant, and the format says which
operand bytes the instruction depends on (R300, R303). -/

namespace Sys2Proof

/-- The instruction of a variant with operand bytes `lo`, `hi`. -/
def Variant.instr (v : Variant) (lo hi : Byte) : Instr :=
  match v with
  | .nop => .nop
  | .ld r => .ld r (word16 hi lo)
  | .st r => .st r (word16 hi lo)
  | .setf => .setf
  | .clrf => .clrf
  | .alu op d r => .alu op d r
  | .jmp => .jmp (word16 hi lo)
  | .jr => .jr lo
  | .wip => .wip (word16 hi lo)
  | .br => .br lo
  | .cmp kind r => .cmp kind r (word16 hi lo)
  | .rot dir r => .rot dir r lo
  | .out => .out (word16 hi lo)
  | .halt => .halt

@[simp] theorem Instr.variant_ld (r : Reg) (a : Addr) : (Instr.ld r a).variant = .ld r := by
  cases r <;> rfl

@[simp] theorem Instr.variant_st (r : Reg) (a : Addr) : (Instr.st r a).variant = .st r := by
  cases r <;> rfl

@[simp] theorem Instr.variant_cmp (kind : CmpKind) (r : Reg) (a : Addr) :
    (Instr.cmp kind r a).variant = .cmp kind r := by
  cases kind <;> cases r <;> rfl

@[simp] theorem Instr.variant_rot (dir : RotDir) (r : Reg) (n : Byte) :
    (Instr.rot dir r n).variant = .rot dir r := by
  cases dir <;> cases r <;> rfl

theorem Instr.variant_alu (op : AluOp) (d r : Reg) :
    (Instr.alu op d r).variant = if d = r then .nop else .alu op d r := by
  cases op <;> cases d <;> cases r <;> rfl

theorem Variant.instr_variant_alu (op : AluOp) (d r : Reg) (lo hi : Byte) :
    (Instr.alu op d r).variant.instr lo hi = .alu op d r := by
  cases op <;> cases d <;> cases r <;> rfl

/-- A decoded instruction is the instruction of its opcode's variant with the operand bytes. -/
theorem instrOf_eq_instr (b lo hi : Byte) : instrOf b lo hi = (variantOf b).instr lo hi := by
  unfold variantOf instrOf
  repeat' split
  all_goals first
    | rfl
    | exact (Variant.instr_variant_alu _ _ _ lo hi).symm
    | simp only [Instr.variant_ld, Instr.variant_st, Instr.variant_cmp, Instr.variant_rot,
        Variant.instr]

/-- A decoded instruction has the variant of its opcode byte, whatever its operand bytes (R303). -/
theorem instrOf_variant (b lo hi : Byte) : (instrOf b lo hi).variant = variantOf b := by
  unfold variantOf instrOf
  repeat' split
  all_goals first
    | rfl
    | simp only [Instr.variant_ld, Instr.variant_st, Instr.variant_cmp, Instr.variant_rot]

/-- An instruction of format F0 depends on its opcode byte alone (R302). -/
theorem instrOf_f0 {b : Byte} (h : formatOf b = .f0) (lo hi : Byte) :
    instrOf b lo hi = instrOf b 0 0 := by
  rw [instrOf_eq_instr, instrOf_eq_instr]
  unfold formatOf at h
  cases hv : variantOf b <;> rw [hv] at h <;> first | rfl | cases h

/-- An instruction of format F8 depends on its opcode byte and the byte after it (R302). -/
theorem instrOf_f8 {b : Byte} (h : formatOf b = .f8) (lo hi : Byte) :
    instrOf b lo hi = instrOf b lo 0 := by
  rw [instrOf_eq_instr, instrOf_eq_instr]
  unfold formatOf at h
  cases hv : variantOf b <;> rw [hv] at h <;> first | rfl | cases h

/-- Decoding three bytes never fails; it consumes the length of the opcode byte (R303, R340). -/
theorem decode_three (b lo hi : Byte) :
    decode [b, lo, hi] = .ok (instrOf b lo hi, [b, lo, hi].drop (lengthOf b)) := by
  unfold lengthOf
  cases h : formatOf b
  · simp [decode, h, instrOf_f0 h lo hi, Format.operands]
  · simp [decode, h, instrOf_f8 h lo hi, Format.operands]
  · simp [decode, h, Format.operands]

end Sys2Proof
end

