-- ==== Sys2Proof/Laws/State.lean ====
section
/-! SUPPORT. One lemma per field and per update of the state, and the register file's law, so that
no proof unfolds a record update. -/

namespace Sys2Proof.Machine

/-- Reading a register after a write: the written value at the written register, the old value at
every other (R22, R103). -/
@[simp] theorem State.reg_setReg (s : State) (r q : Reg) (v : Byte) :
    (s.setReg r v).reg q = if q = r then v else s.reg q := by
  cases r <;> cases q <;> rfl

/-- Two register files with equal registers are equal. -/
theorem Regs.ext_reg (s t : State) (h : ∀ q, t.reg q = s.reg q) : t.regs = s.regs := by
  have eta (u : State) : u.regs = ⟨u.reg .A, u.reg .B, u.reg .C, u.reg .D⟩ := rfl
  rw [eta s, eta t, h, h, h, h]

/-! ### `setReg` -/

@[simp] theorem State.ip_setReg (s : State) (r : Reg) (v : Byte) :
    (s.setReg r v).ip = s.ip := by cases r <;> rfl
@[simp] theorem State.mem_setReg (s : State) (r : Reg) (v : Byte) :
    (s.setReg r v).mem = s.mem := by cases r <;> rfl
@[simp] theorem State.flag_setReg (s : State) (r : Reg) (v : Byte) :
    (s.setReg r v).flag = s.flag := by cases r <;> rfl
@[simp] theorem State.halted_setReg (s : State) (r : Reg) (v : Byte) :
    (s.setReg r v).halted = s.halted := by cases r <;> rfl
@[simp] theorem State.out_setReg (s : State) (r : Reg) (v : Byte) :
    (s.setReg r v).out = s.out := by cases r <;> rfl
@[simp] theorem State.sinkLimit_setReg (s : State) (r : Reg) (v : Byte) :
    (s.setReg r v).sinkLimit = s.sinkLimit := by cases r <;> rfl
@[simp] theorem State.observing_setReg (s : State) (r : Reg) (v : Byte) :
    (s.setReg r v).observing = s.observing := by cases r <;> rfl
@[simp] theorem State.trace_setReg (s : State) (r : Reg) (v : Byte) :
    (s.setReg r v).trace = s.trace := by cases r <;> rfl
@[simp] theorem State.memRead_setReg (s : State) (r : Reg) (v : Byte) (a : Addr) :
    (s.setReg r v).memRead a = s.memRead a := by cases r <;> rfl
@[simp] theorem State.sinkAccepts_setReg (s : State) (r : Reg) (v : Byte) :
    (s.setReg r v).sinkAccepts = s.sinkAccepts := by cases r <;> rfl

/-! ### `advance` -/

@[simp] theorem State.regs_advance (s : State) (n : Nat) :
    (s.advance n).regs = s.regs := rfl
@[simp] theorem State.ip_advance (s : State) (n : Nat) :
    (s.advance n).ip = s.ip + BitVec.ofNat 16 n := rfl
@[simp] theorem State.mem_advance (s : State) (n : Nat) :
    (s.advance n).mem = s.mem := rfl
@[simp] theorem State.flag_advance (s : State) (n : Nat) :
    (s.advance n).flag = s.flag := rfl
@[simp] theorem State.halted_advance (s : State) (n : Nat) :
    (s.advance n).halted = s.halted := rfl
@[simp] theorem State.out_advance (s : State) (n : Nat) :
    (s.advance n).out = s.out := rfl
@[simp] theorem State.sinkLimit_advance (s : State) (n : Nat) :
    (s.advance n).sinkLimit = s.sinkLimit := rfl
@[simp] theorem State.observing_advance (s : State) (n : Nat) :
    (s.advance n).observing = s.observing := rfl
@[simp] theorem State.trace_advance (s : State) (n : Nat) :
    (s.advance n).trace = s.trace := rfl
@[simp] theorem State.reg_advance (s : State) (n : Nat) (q : Reg) :
    (s.advance n).reg q = s.reg q := by cases q <;> rfl
@[simp] theorem State.memRead_advance (s : State) (n : Nat) (a : Addr) :
    (s.advance n).memRead a = s.memRead a := rfl
@[simp] theorem State.sinkAccepts_advance (s : State) (n : Nat) :
    (s.advance n).sinkAccepts = s.sinkAccepts := rfl

/-! ### `jump` -/

@[simp] theorem State.regs_jump (s : State) (a : Addr) :
    (s.jump a).regs = s.regs := rfl
@[simp] theorem State.ip_jump (s : State) (a : Addr) :
    (s.jump a).ip = a := rfl
@[simp] theorem State.mem_jump (s : State) (a : Addr) :
    (s.jump a).mem = s.mem := rfl
@[simp] theorem State.flag_jump (s : State) (a : Addr) :
    (s.jump a).flag = s.flag := rfl
@[simp] theorem State.halted_jump (s : State) (a : Addr) :
    (s.jump a).halted = s.halted := rfl
@[simp] theorem State.out_jump (s : State) (a : Addr) :
    (s.jump a).out = s.out := rfl
@[simp] theorem State.sinkLimit_jump (s : State) (a : Addr) :
    (s.jump a).sinkLimit = s.sinkLimit := rfl
@[simp] theorem State.observing_jump (s : State) (a : Addr) :
    (s.jump a).observing = s.observing := rfl
@[simp] theorem State.trace_jump (s : State) (a : Addr) :
    (s.jump a).trace = s.trace := rfl
@[simp] theorem State.reg_jump (s : State) (a : Addr) (q : Reg) :
    (s.jump a).reg q = s.reg q := by cases q <;> rfl
@[simp] theorem State.memRead_jump (s : State) (a : Addr) (b : Addr) :
    (s.jump a).memRead b = s.memRead b := rfl
@[simp] theorem State.sinkAccepts_jump (s : State) (a : Addr) :
    (s.jump a).sinkAccepts = s.sinkAccepts := rfl

/-! ### `memWrite` -/

@[simp] theorem State.regs_memWrite (s : State) (a : Addr) (v : Byte) :
    (s.memWrite a v).regs = s.regs := rfl
@[simp] theorem State.ip_memWrite (s : State) (a : Addr) (v : Byte) :
    (s.memWrite a v).ip = s.ip := rfl
@[simp] theorem State.mem_memWrite (s : State) (a : Addr) (v : Byte) :
    (s.memWrite a v).mem = s.mem.write a.toNat v := rfl
@[simp] theorem State.flag_memWrite (s : State) (a : Addr) (v : Byte) :
    (s.memWrite a v).flag = s.flag := rfl
@[simp] theorem State.halted_memWrite (s : State) (a : Addr) (v : Byte) :
    (s.memWrite a v).halted = s.halted := rfl
@[simp] theorem State.out_memWrite (s : State) (a : Addr) (v : Byte) :
    (s.memWrite a v).out = s.out := rfl
@[simp] theorem State.sinkLimit_memWrite (s : State) (a : Addr) (v : Byte) :
    (s.memWrite a v).sinkLimit = s.sinkLimit := rfl
@[simp] theorem State.observing_memWrite (s : State) (a : Addr) (v : Byte) :
    (s.memWrite a v).observing = s.observing := rfl
@[simp] theorem State.trace_memWrite (s : State) (a : Addr) (v : Byte) :
    (s.memWrite a v).trace = s.trace := rfl
@[simp] theorem State.reg_memWrite (s : State) (a : Addr) (v : Byte) (q : Reg) :
    (s.memWrite a v).reg q = s.reg q := by cases q <;> rfl
@[simp] theorem State.sinkAccepts_memWrite (s : State) (a : Addr) (v : Byte) :
    (s.memWrite a v).sinkAccepts = s.sinkAccepts := rfl

/-! ### `setFlag` -/

@[simp] theorem State.regs_setFlag (s : State) :
    (s.setFlag).regs = s.regs := rfl
@[simp] theorem State.ip_setFlag (s : State) :
    (s.setFlag).ip = s.ip := rfl
@[simp] theorem State.mem_setFlag (s : State) :
    (s.setFlag).mem = s.mem := rfl
@[simp] theorem State.flag_setFlag (s : State) :
    (s.setFlag).flag = true := rfl
@[simp] theorem State.halted_setFlag (s : State) :
    (s.setFlag).halted = s.halted := rfl
@[simp] theorem State.out_setFlag (s : State) :
    (s.setFlag).out = s.out := rfl
@[simp] theorem State.sinkLimit_setFlag (s : State) :
    (s.setFlag).sinkLimit = s.sinkLimit := rfl
@[simp] theorem State.observing_setFlag (s : State) :
    (s.setFlag).observing = s.observing := rfl
@[simp] theorem State.trace_setFlag (s : State) :
    (s.setFlag).trace = s.trace := rfl
@[simp] theorem State.reg_setFlag (s : State) (q : Reg) :
    (s.setFlag).reg q = s.reg q := by cases q <;> rfl
@[simp] theorem State.memRead_setFlag (s : State) (a : Addr) :
    (s.setFlag).memRead a = s.memRead a := rfl
@[simp] theorem State.sinkAccepts_setFlag (s : State) :
    (s.setFlag).sinkAccepts = s.sinkAccepts := rfl

/-! ### `clearFlag` -/

@[simp] theorem State.regs_clearFlag (s : State) :
    (s.clearFlag).regs = s.regs := rfl
@[simp] theorem State.ip_clearFlag (s : State) :
    (s.clearFlag).ip = s.ip := rfl
@[simp] theorem State.mem_clearFlag (s : State) :
    (s.clearFlag).mem = s.mem := rfl
@[simp] theorem State.flag_clearFlag (s : State) :
    (s.clearFlag).flag = false := rfl
@[simp] theorem State.halted_clearFlag (s : State) :
    (s.clearFlag).halted = s.halted := rfl
@[simp] theorem State.out_clearFlag (s : State) :
    (s.clearFlag).out = s.out := rfl
@[simp] theorem State.sinkLimit_clearFlag (s : State) :
    (s.clearFlag).sinkLimit = s.sinkLimit := rfl
@[simp] theorem State.observing_clearFlag (s : State) :
    (s.clearFlag).observing = s.observing := rfl
@[simp] theorem State.trace_clearFlag (s : State) :
    (s.clearFlag).trace = s.trace := rfl
@[simp] theorem State.reg_clearFlag (s : State) (q : Reg) :
    (s.clearFlag).reg q = s.reg q := by cases q <;> rfl
@[simp] theorem State.memRead_clearFlag (s : State) (a : Addr) :
    (s.clearFlag).memRead a = s.memRead a := rfl
@[simp] theorem State.sinkAccepts_clearFlag (s : State) :
    (s.clearFlag).sinkAccepts = s.sinkAccepts := rfl

/-! ### `halt` -/

@[simp] theorem State.regs_halt (s : State) :
    (s.halt).regs = s.regs := rfl
@[simp] theorem State.ip_halt (s : State) :
    (s.halt).ip = s.ip := rfl
@[simp] theorem State.mem_halt (s : State) :
    (s.halt).mem = s.mem := rfl
@[simp] theorem State.flag_halt (s : State) :
    (s.halt).flag = s.flag := rfl
@[simp] theorem State.halted_halt (s : State) :
    (s.halt).halted = true := rfl
@[simp] theorem State.out_halt (s : State) :
    (s.halt).out = s.out := rfl
@[simp] theorem State.sinkLimit_halt (s : State) :
    (s.halt).sinkLimit = s.sinkLimit := rfl
@[simp] theorem State.observing_halt (s : State) :
    (s.halt).observing = s.observing := rfl
@[simp] theorem State.trace_halt (s : State) :
    (s.halt).trace = s.trace := rfl
@[simp] theorem State.reg_halt (s : State) (q : Reg) :
    (s.halt).reg q = s.reg q := by cases q <;> rfl
@[simp] theorem State.memRead_halt (s : State) (a : Addr) :
    (s.halt).memRead a = s.memRead a := rfl
@[simp] theorem State.sinkAccepts_halt (s : State) :
    (s.halt).sinkAccepts = s.sinkAccepts := rfl

/-! ### `emit` -/

@[simp] theorem State.regs_emit (s : State) (b : Byte) :
    (s.emit b).regs = s.regs := rfl
@[simp] theorem State.ip_emit (s : State) (b : Byte) :
    (s.emit b).ip = s.ip := rfl
@[simp] theorem State.mem_emit (s : State) (b : Byte) :
    (s.emit b).mem = s.mem := rfl
@[simp] theorem State.flag_emit (s : State) (b : Byte) :
    (s.emit b).flag = s.flag := rfl
@[simp] theorem State.halted_emit (s : State) (b : Byte) :
    (s.emit b).halted = s.halted := rfl
@[simp] theorem State.out_emit (s : State) (b : Byte) :
    (s.emit b).out = s.out ++ [b] := rfl
@[simp] theorem State.sinkLimit_emit (s : State) (b : Byte) :
    (s.emit b).sinkLimit = s.sinkLimit := rfl
@[simp] theorem State.observing_emit (s : State) (b : Byte) :
    (s.emit b).observing = s.observing := rfl
@[simp] theorem State.trace_emit (s : State) (b : Byte) :
    (s.emit b).trace = s.trace := rfl
@[simp] theorem State.reg_emit (s : State) (b : Byte) (q : Reg) :
    (s.emit b).reg q = s.reg q := by cases q <;> rfl
@[simp] theorem State.memRead_emit (s : State) (b : Byte) (a : Addr) :
    (s.emit b).memRead a = s.memRead a := rfl

/-! ### `observe` -/

@[simp] theorem State.regs_observe (s : State) (b : Byte) (v : Variant) :
    (s.observe b v).regs = s.regs := by unfold State.observe; split <;> rfl
@[simp] theorem State.ip_observe (s : State) (b : Byte) (v : Variant) :
    (s.observe b v).ip = s.ip := by unfold State.observe; split <;> rfl
@[simp] theorem State.mem_observe (s : State) (b : Byte) (v : Variant) :
    (s.observe b v).mem = s.mem := by unfold State.observe; split <;> rfl
@[simp] theorem State.flag_observe (s : State) (b : Byte) (v : Variant) :
    (s.observe b v).flag = s.flag := by unfold State.observe; split <;> rfl
@[simp] theorem State.halted_observe (s : State) (b : Byte) (v : Variant) :
    (s.observe b v).halted = s.halted := by unfold State.observe; split <;> rfl
@[simp] theorem State.out_observe (s : State) (b : Byte) (v : Variant) :
    (s.observe b v).out = s.out := by unfold State.observe; split <;> rfl
@[simp] theorem State.sinkLimit_observe (s : State) (b : Byte) (v : Variant) :
    (s.observe b v).sinkLimit = s.sinkLimit := by unfold State.observe; split <;> rfl
@[simp] theorem State.observing_observe (s : State) (b : Byte) (v : Variant) :
    (s.observe b v).observing = s.observing := by unfold State.observe; split <;> rfl
@[simp] theorem State.reg_observe (s : State) (b : Byte) (v : Variant) (q : Reg) :
    (s.observe b v).reg q = s.reg q := by unfold State.observe; split <;> cases q <;> rfl
@[simp] theorem State.memRead_observe (s : State) (b : Byte) (v : Variant) (a : Addr) :
    (s.observe b v).memRead a = s.memRead a := by unfold State.observe; split <;> rfl
@[simp] theorem State.sinkAccepts_observe (s : State) (b : Byte) (v : Variant) :
    (s.observe b v).sinkAccepts = s.sinkAccepts := by unfold State.observe; split <;> rfl

/-! ### `memWrite16` -/

@[simp] theorem State.regs_memWrite16 (s : State) (a w : Addr) :
    (s.memWrite16 a w).regs = s.regs := rfl
@[simp] theorem State.ip_memWrite16 (s : State) (a w : Addr) :
    (s.memWrite16 a w).ip = s.ip := rfl
@[simp] theorem State.flag_memWrite16 (s : State) (a w : Addr) :
    (s.memWrite16 a w).flag = s.flag := rfl
@[simp] theorem State.halted_memWrite16 (s : State) (a w : Addr) :
    (s.memWrite16 a w).halted = s.halted := rfl
@[simp] theorem State.out_memWrite16 (s : State) (a w : Addr) :
    (s.memWrite16 a w).out = s.out := rfl
@[simp] theorem State.sinkLimit_memWrite16 (s : State) (a w : Addr) :
    (s.memWrite16 a w).sinkLimit = s.sinkLimit := rfl
@[simp] theorem State.observing_memWrite16 (s : State) (a w : Addr) :
    (s.memWrite16 a w).observing = s.observing := rfl
@[simp] theorem State.trace_memWrite16 (s : State) (a w : Addr) :
    (s.memWrite16 a w).trace = s.trace := rfl
@[simp] theorem State.reg_memWrite16 (s : State) (a w : Addr) (q : Reg) :
    (s.memWrite16 a w).reg q = s.reg q := by cases q <;> rfl
@[simp] theorem State.sinkAccepts_memWrite16 (s : State) (a w : Addr) :
    (s.memWrite16 a w).sinkAccepts = s.sinkAccepts := rfl

end Sys2Proof.Machine
end

