-- ==== Sys2Proof/Laws/Exec.lean ====
section
/-! SUPPORT. What `exec` can do, said once: its 97 arms are the fourteen variants of R301 over the
shared operations, and it stops only where OUT's sink rejects. -/

namespace Sys2Proof.Machine

/-- Every arm of `exec` is the shared meaning of its variant at the reference parameters. -/
theorem exec_instr (v : Variant) (hv : v.exposed baRefPairs) (lo hi : Byte) (s : State) :
    exec (v.instr lo hi) s = execVariant baRef v lo hi s := by
  cases v with
  | alu op d r => cases op <;> cases d <;> cases r <;> first | rfl | cases hv
  | ld r => cases r <;> rfl
  | st r => cases r <;> rfl
  | cmp kind r => cases kind <;> cases r <;> rfl
  | rot dir r => cases dir <;> cases r <;> rfl
  | _ => rfl

/-- Every instruction is the instruction of an exposed variant with some operand bytes. -/
theorem Instr_eq_instr (i : Instr) :
    i.variant.exposed baRefPairs = true ∧ ∃ lo hi, i = i.variant.instr lo hi := by
  have addr (a : Addr) : ∃ lo hi : Byte, a = word16 hi lo :=
    ⟨loByte a, hiByte a, (word16_hiByte_loByte a).symm⟩
  cases i <;> refine ⟨rfl, ?_⟩
  all_goals first
    | exact ⟨0, 0, rfl⟩
    | exact ⟨_, 0, rfl⟩
    | (obtain ⟨lo, hi, rfl⟩ := addr ‹Addr›; exact ⟨lo, hi, rfl⟩)

/-- A meaning either answers a next state or is OUT whose byte the sink rejects, and then the fault
carries that byte and the state the meaning was given (R521, R603). -/
theorem execVariant_cases (P : Params) (v : Variant) (lo hi : Byte) (s : State) :
    (∃ t, execVariant P v lo hi s = .next t) ∨
    (v = .out ∧ s.sinkAccepts = false ∧
      execVariant P v lo hi s = .fault (.sinkFault (s.memRead (word16 hi lo)) s)) := by
  cases v with
  | out =>
    by_cases h : s.sinkAccepts = true
    · exact .inl ⟨_, if_pos h⟩
    · exact .inr ⟨rfl, by simpa using h, if_neg h⟩
  | _ => exact .inl ⟨_, rfl⟩

end Sys2Proof.Machine
end

