-- ==== Sys2Proof/Laws/Memory.lean ====
section
/-! SUPPORT. The laws of memory: a read after a write, the canonical form kept by every operation,
and that canonical memories with equal bytes are equal data. -/

namespace Sys2Proof.Machine

theorem Memory.wf_nil : Memory.wf [] := ⟨.nil, by simp⟩

theorem Memory.wf_cons {c : Host.Cell} {m : Memory} :
    Memory.wf (c :: m) ↔ (c.1 < 65536 ∧ c.2 ≠ 0) ∧ (∀ e ∈ m, c.1 < e.1) ∧ Memory.wf m := by
  simp only [Memory.wf, List.pairwise_cons, List.mem_cons, forall_eq_or_imp]
  tauto

/-- A memory none of whose keys is `a` reads as 0x00 there. -/
theorem Memory.read_eq_zero {m : Memory} {a : Nat} (h : ∀ e ∈ m, e.1 ≠ a) : Memory.read m a = 0 := by
  induction m with
  | nil => rfl
  | cons c m ih =>
    have hc : a ≠ c.1 := fun e => h c (by simp) e.symm
    simpa [Memory.read, hc] using ih fun e he => h e (by simp [he])

theorem Memory.read_push (m : Memory) (a b : Nat) (v : Byte) (h : ∀ e ∈ m, a < e.1) :
    Memory.read (Memory.push a v m) b = if b = a then v else Memory.read m b := by
  unfold Memory.push
  split
  · next hv =>
    split
    · next hb => rw [hb, hv]; exact Memory.read_eq_zero fun e he => (h e he).ne'
    · rfl
  · rfl

theorem Memory.wf_push {m : Memory} {a : Nat} {v : Byte} (hm : m.wf) (ha : a < 65536)
    (h : ∀ e ∈ m, a < e.1) : (Memory.push a v m).wf := by
  unfold Memory.push
  split
  · exact hm
  · next hv => exact Memory.wf_cons.2 ⟨⟨ha, hv⟩, h, hm⟩

theorem Memory.mem_push {m : Memory} {a : Nat} {v : Byte} {e : Host.Cell}
    (h : e ∈ Memory.push a v m) : e.1 = a ∨ e ∈ m := by
  unfold Memory.push at h
  split at h
  · exact .inr h
  · rcases List.mem_cons.1 h with rfl | h
    · exact .inl rfl
    · exact .inr h

/-- Every key of a written memory is the written one or a key it had. -/
theorem Memory.mem_write {m : Memory} {a : Nat} {v : Byte} {e : Host.Cell}
    (h : e ∈ Memory.write m a v) : e.1 = a ∨ e ∈ m := by
  induction m with
  | nil => exact Memory.mem_push h
  | cons c m ih =>
    simp only [Memory.write] at h
    split at h
    · exact Memory.mem_push h
    · split at h
      · exact (Memory.mem_push h).imp id (List.mem_cons_of_mem _)
      · rcases List.mem_cons.1 h with rfl | h
        · exact .inr (by simp)
        · exact (ih h).imp id (List.mem_cons_of_mem _)

/-- A write keeps the canonical form. -/
theorem Memory.wf_write {m : Memory} {a : Nat} (v : Byte) (hm : m.wf) (ha : a < 65536) :
    (Memory.write m a v).wf := by
  induction m with
  | nil => exact Memory.wf_push hm ha (by simp)
  | cons c m ih =>
    obtain ⟨hc, hlt, hm'⟩ := Memory.wf_cons.1 hm
    simp only [Memory.write]
    split
    · next h =>
      refine Memory.wf_push hm ha fun e he => ?_
      rcases List.mem_cons.1 he with rfl | he
      · exact h
      · exact h.trans (hlt e he)
    · split
      · next h => exact Memory.wf_push hm' ha fun e he => h ▸ hlt e he
      · next h1 h2 =>
        refine Memory.wf_cons.2 ⟨hc, fun e he => ?_, ih hm'⟩
        rcases Memory.mem_write he with rfl | he
        · exact lt_of_le_of_ne (Nat.le_of_not_lt h1) (Ne.symm h2)
        · exact hlt e he

/-- A read after a write: the written byte at the written key, the old byte at every other. -/
theorem Memory.read_write {m : Memory} (hm : m.wf) (a b : Nat) (v : Byte) :
    Memory.read (Memory.write m a v) b = if b = a then v else Memory.read m b := by
  induction m with
  | nil => exact Memory.read_push [] a b v (by simp)
  | cons c m ih =>
    obtain ⟨-, hlt, hm'⟩ := Memory.wf_cons.1 hm
    simp only [Memory.write]
    split
    · next h =>
      refine Memory.read_push _ a b v fun e he => ?_
      rcases List.mem_cons.1 he with rfl | he
      · exact h
      · exact h.trans (hlt e he)
    · split
      · next h =>
        rw [Memory.read_push m a b v fun e he => h ▸ hlt e he]
        by_cases hb : b = a
        · simp [hb]
        · have : b ≠ c.1 := fun e => hb (e.trans h.symm)
          simp [Memory.read, hb, this]
      · next h =>
        by_cases hb : b = c.1
        · have : b ≠ a := fun e => h (e.symm.trans hb)
          simp [Memory.read, hb ▸ this, hb]
        · simp [Memory.read, hb, ih hm']

/-- The bytes of a memory made from a list. -/
theorem Memory.key_ofBytes {k : Nat} {bytes : List Byte} {e : Host.Cell}
    (h : e ∈ Memory.ofBytes k bytes) : k ≤ e.1 ∧ e.1 < k + bytes.length := by
  induction bytes generalizing k with
  | nil => simp [Memory.ofBytes] at h
  | cons v rest ih =>
    rw [List.length_cons]
    rcases Memory.mem_push h with h | h
    · omega
    · have := ih h
      omega

theorem Memory.wf_ofBytes {k : Nat} {bytes : List Byte} (h : k + bytes.length ≤ 65536) :
    (Memory.ofBytes k bytes).wf := by
  induction bytes generalizing k with
  | nil => exact Memory.wf_nil
  | cons v rest ih =>
    rw [List.length_cons] at h
    refine Memory.wf_push (ih (by omega)) (by omega) fun e he => ?_
    exact (Memory.key_ofBytes he).1

theorem Memory.read_ofBytes (k a : Nat) (bytes : List Byte) :
    Memory.read (Memory.ofBytes k bytes) (k + a) = bytes.getD a 0 := by
  induction bytes generalizing k a with
  | nil => rfl
  | cons v rest ih =>
    have hlt : ∀ e ∈ Memory.ofBytes (k + 1) rest, k < e.1 := fun e he => (Memory.key_ofBytes he).1
    rw [Memory.ofBytes, Memory.read_push _ _ _ _ hlt]
    cases a with
    | zero => simp
    | succ a =>
      have := ih (k + 1) a
      rw [show k + 1 + a = k + (a + 1) by omega] at this
      simp [this]

/-- Canonical memories with the same bytes are the same list. -/
theorem Memory.ext {m n : Memory} (hm : m.wf) (hn : n.wf) (h : ∀ a, Memory.read m a = Memory.read n a) :
    m = n := by
  induction m generalizing n with
  | nil =>
    cases n with
    | nil => rfl
    | cons d n =>
      obtain ⟨hd, -, -⟩ := Memory.wf_cons.1 hn
      have := h d.1
      simp [Memory.read] at this
      exact absurd this.symm hd.2
  | cons c m ih =>
    obtain ⟨hc, hclt, hm'⟩ := Memory.wf_cons.1 hm
    cases n with
    | nil =>
      have := h c.1
      simp [Memory.read] at this
      exact absurd this hc.2
    | cons d n =>
      obtain ⟨hd, hdlt, hn'⟩ := Memory.wf_cons.1 hn
      have hkey : c.1 = d.1 := by
        rcases lt_trichotomy c.1 d.1 with hlt | heq | hgt
        · have h1 := h c.1
          rw [show Memory.read (d :: n) c.1 = 0 from Memory.read_eq_zero fun e he => by
            rcases List.mem_cons.1 he with rfl | he
            · exact hlt.ne'
            · exact (hlt.trans (hdlt e he)).ne'] at h1
          simp [Memory.read] at h1
          exact absurd h1 hc.2
        · exact heq
        · have h1 := h d.1
          rw [show Memory.read (c :: m) d.1 = 0 from Memory.read_eq_zero fun e he => by
            rcases List.mem_cons.1 he with rfl | he
            · exact hgt.ne'
            · exact (hgt.trans (hclt e he)).ne'] at h1
          simp [Memory.read] at h1
          exact absurd h1.symm hd.2
      have hval : c.2 = d.2 := by
        have h1 := h c.1
        simpa [Memory.read, hkey] using h1
      have htail : ∀ a, Memory.read m a = Memory.read n a := fun a => by
        by_cases ha : a = c.1
        · rw [Memory.read_eq_zero fun e he => ha ▸ (hclt e he).ne',
            Memory.read_eq_zero fun e he => by rw [ha, hkey]; exact (hdlt e he).ne']
        · have h1 := h a
          simpa [Memory.read, ha, hkey ▸ ha] using h1
      rw [ih hm' hn' htail, Prod.ext hkey hval]

/-! ### The same laws for the state's accesses -/

/-- A byte write, then a byte read (R210, R211, R230). -/
theorem State.memRead_memWrite {s : State} (hs : s.mem.wf) (a b : Addr) (v : Byte) :
    (s.memWrite a v).memRead b = if b = a then v else s.memRead b := by
  simp only [State.memRead, State.memWrite, Memory.read_write hs, BitVec.toNat_inj]

theorem State.wf_memWrite {s : State} (hs : s.mem.wf) (a : Addr) (v : Byte) :
    (s.memWrite a v).mem.wf :=
  Memory.wf_write v hs a.isLt

theorem State.wf_memWrite16 {s : State} (hs : s.mem.wf) (a w : Addr) :
    (s.memWrite16 a w).mem.wf :=
  State.wf_memWrite (State.wf_memWrite hs a _) (a + 1) _

/-- The two addresses of a 2-byte access always differ (R211). -/
theorem Addr_succ_ne (a : Addr) : a + 1 ≠ a := by
  simp

/-- A 2-byte write, then a byte read (R211). -/
theorem State.memRead_memWrite16 {s : State} (hs : s.mem.wf) (a b w : Addr) :
    (s.memWrite16 a w).memRead b
      = if b = a + 1 then hiByte w else if b = a then loByte w else s.memRead b := by
  rw [State.memWrite16, State.memRead_memWrite (State.wf_memWrite hs a _),
    State.memRead_memWrite hs]

end Sys2Proof.Machine
end

