-- ==== Sys2Proof/Laws/Ops.lean ====
section
/-! SUPPORT. One lemma per shared operation that says what it can do, and the arm of `exec` that
calls it for each family of instructions. -/

namespace Sys2Proof.Machine

/-! ### The arms, by family -/

@[simp] theorem exec_ld (r : Reg) (a : Addr) (s : State) :
    exec (Instr.ld r a) s = .next (load r a s) := by cases r <;> rfl

@[simp] theorem exec_st (r : Reg) (a : Addr) (s : State) :
    exec (Instr.st r a) s = .next (store r a s) := by cases r <;> rfl

theorem exec_alu {d r : Reg} (h : d ≠ r) (op : AluOp) (s : State) :
    exec (Instr.alu op d r) s = .next (alu op d r s) := by
  cases op <;> cases d <;> cases r <;> first | rfl | exact absurd rfl h

@[simp] theorem exec_cmp (kind : CmpKind) (r : Reg) (a : Addr) (s : State) :
    exec (Instr.cmp kind r a) s = .next (compare kind r a s) := by
  cases kind <;> cases r <;> rfl

@[simp] theorem exec_rot (dir : RotDir) (r : Reg) (n : Byte) (s : State) :
    exec (Instr.rot dir r n) s = .next (rotate dir r n s) := by
  cases dir <;> cases r <;> rfl

/-! ### The operations -/

/-- A store, through a later read of one byte (R402). -/
theorem store_memRead {s : State} (hs : s.mem.wf) (r : Reg) (a b : Addr) :
    (store r a s).memRead b = if b = a then s.reg r else s.memRead b :=
  State.memRead_memWrite hs a b _

/-- When a comparison leaves F true (R480). -/
theorem compareWith_flag (sel : CmpKind → Reg → Reg) (rel : CmpKind → Byte → Byte → Bool)
    (kind : CmpKind) (r : Reg) (a : Addr) (s : State) :
    (compareWith sel rel kind r a s).flag = true ↔
      s.flag = true ∨ rel kind (s.reg (sel kind r)) (s.memRead a) = true := by
  unfold compareWith
  split <;> simp_all

/-- A comparison is the state itself or the state with F true: it changes nothing else (R480). -/
theorem compareWith_cases (sel : CmpKind → Reg → Reg) (rel : CmpKind → Byte → Byte → Bool)
    (kind : CmpKind) (r : Reg) (a : Addr) (s : State) :
    compareWith sel rel kind r a s = s.setFlag ∨ compareWith sel rel kind r a s = s := by
  unfold compareWith
  split
  · exact .inl rfl
  · exact .inr rfl

/-- The halt condition as five equations (R522). -/
theorem haltCondition_iff (s : State) :
    haltCondition s = true ↔ s.reg .A = 0xFF ∧ s.reg .B = 0xFF ∧ s.reg .C = 0xFF ∧
      s.reg .D = 0xFF ∧ s.flag = true := by
  simp [haltCondition, and_assoc]

/-- The sink accepts exactly when it has no limit or has not reached it (R147). -/
theorem State.sinkAccepts_iff (s : State) :
    s.sinkAccepts = true ↔
      s.sinkLimit = none ∨ ∃ n, s.sinkLimit = some n ∧ s.out.length < n := by
  unfold State.sinkAccepts
  cases s.sinkLimit <;> simp

/-- Every meaning but OUT's and HALT's leaves the output and H alone, and no meaning touches the
sink's limit or the observer (R101, R131). -/
theorem execVariant_ports {P : Params} {v : Variant} {lo hi : Byte} {s t : State}
    (h : execVariant P v lo hi s = .next t) :
    t.sinkLimit = s.sinkLimit ∧ t.observing = s.observing ∧ t.trace = s.trace := by
  cases v <;> simp only [execVariant, Host.Outcome.next.injEq] at h <;> try subst h
  case out => unfold output at h; split at h <;> cases h; simp
  case halt => split <;> simp
  case cmp kind r =>
    rcases compareWith_cases P.cmpSel P.cmpRel kind r (word16 hi lo) s with e | e <;> simp [e]
  case br => split <;> simp
  all_goals simp [load, store, alu, rotate]

/-- Every meaning keeps memory in its canonical form. -/
theorem execVariant_wf {P : Params} {v : Variant} {lo hi : Byte} {s t : State} (hs : s.mem.wf)
    (h : execVariant P v lo hi s = .next t) : t.mem.wf := by
  cases v <;> simp only [execVariant, Host.Outcome.next.injEq] at h <;> try subst h
  case st => exact State.wf_memWrite hs _ _
  case wip => exact State.wf_memWrite16 hs _ _
  case out => unfold output at h; split at h <;> cases h; simpa using hs
  case halt => split <;> simpa using hs
  case cmp kind r =>
    rcases compareWith_cases P.cmpSel P.cmpRel kind r (word16 hi lo) s with e | e <;> simpa [e] using hs
  case br => split <;> simpa using hs
  all_goals simpa [load, alu, rotate] using hs

end Sys2Proof.Machine
end

