-- ==== Sys2Proof/Laws/Step.lean ====
section
/-! SUPPORT. What a step can do, said once: it does nothing when Halted; otherwise it executes the
instruction whose bytes stand at the pointer and calls the observer. -/

namespace Sys2Proof.Machine

theorem State.advance_advance (s : State) (m n : Nat) :
    (s.advance m).advance n = s.advance (m + n) := by
  simp [State.advance, BitVec.ofNat_add, BitVec.add_assoc]

/-- The state past a format's operand bytes (R114). -/
theorem fetchOperands_state (f : Format) (s : State) :
    (fetchOperands f s).2.2 = s.advance f.operands := by
  cases f
  · simp [fetchOperands, Format.operands, State.advance]
  · rfl
  · exact State.advance_advance s 1 1

/-- The fetched instruction is decoded from the bytes at the pointer (R310, R213). -/
theorem fetch_eq (s : State) :
    fetch s = ⟨s.memRead s.ip,
      instrOf (s.memRead s.ip) (s.memRead (s.ip + 1)) (s.memRead (s.ip + 2)),
      s.advance (lengthOf (s.memRead s.ip))⟩ := by
  have hst : (fetch s).state = s.advance (lengthOf (s.memRead s.ip)) := by
    show (fetchOperands _ _).2.2 = _
    rw [fetchOperands_state]
    exact State.advance_advance s 1 _
  have hin : (fetch s).instr
      = instrOf (s.memRead s.ip) (s.memRead (s.ip + 1)) (s.memRead (s.ip + 2)) := by
    cases h : formatOf (s.memRead s.ip) with
    | f0 => rw [instrOf_f0 h]; simp [fetch, fetch8, h, fetchOperands]
    | f8 =>
      rw [instrOf_f8 h]
      simp [fetch, fetch8, h, fetchOperands]
    | f16 =>
      simp [fetch, fetch8, fetch16, h, fetchOperands, BitVec.add_assoc]
  calc fetch s = ⟨(fetch s).opcode, (fetch s).instr, (fetch s).state⟩ := rfl
    _ = _ := by rw [hst, hin]; rfl

/-- A Halted machine's step (R132). -/
theorem step_halted {s : State} (h : s.halted = true) : step s = .next s := if_pos h

/-- A Running machine's step (R310). -/
theorem step_running {s : State} (h : s.halted = false) :
    step s = complete (s.memRead s.ip) (variantOf (s.memRead s.ip))
      (exec (instrOf (s.memRead s.ip) (s.memRead (s.ip + 1)) (s.memRead (s.ip + 2)))
        (s.advance (lengthOf (s.memRead s.ip)))) := by
  rw [step, engineStep, if_neg (by simp [h]), fetch_eq, instrOf_variant]

/-- A completed meaning and a completed step. -/
theorem complete_eq_next {b : Byte} {v : Variant} {x : Result} {t : State} :
    complete b v x = .next t ↔ ∃ u, x = .next u ∧ t = u.observe b v := by
  cases x <;> simp [complete, eq_comm]

/-- What a step can do, over the fourteen variants (R310, R603): if a Running machine's step answers
next t, then the variant of the opcode byte ran on the state past the instruction. -/
theorem step_next {s t : State} (h : s.halted = false) (hs : step s = .next t) :
    ∃ u, execVariant baRef (variantOf (s.memRead s.ip)) (s.memRead (s.ip + 1))
        (s.memRead (s.ip + 2)) (s.advance (lengthOf (s.memRead s.ip))) = .next u ∧
      t = u.observe (s.memRead s.ip) (variantOf (s.memRead s.ip)) := by
  rw [step_running h, complete_eq_next, instrOf_eq_instr, exec_instr] at hs
  · exact hs
  · rw [← instrOf_variant _ 0 0]
    exact (Instr_eq_instr _).1

end Sys2Proof.Machine
end

