-- ==== Sys2Proof/Laws/Params.lean ====
section
/-! SUPPORT. The parameters: BA-REF meets every constraint of R320 and R321 under either compare
preset, and what a parametric step does. -/

namespace Sys2Proof.Machine

/-- A fact about every byte, from its 256 values. -/
theorem forall_byte {p : Byte → Prop} (h : ∀ n : Fin 256, p (BitVec.ofFin n)) (b : Byte) : p b :=
  h b.toFin

/-- Under BA-REF the opcode map is the decoder's. -/
@[simp] theorem opcodeMap_baRefWith (preset : CmpPreset) (b : Byte) :
    (baRefWith preset).opcodeMap b = variantOf b := by
  show (baRefAssign b).getD .nop = variantOf b
  unfold baRefAssign
  split
  · next h => subst h; rfl
  · split
    · next h => rw [h]; rfl
    · rfl

theorem variantOf_exposed (b : Byte) : (variantOf b).exposed baRefPairs = true := by
  rw [← instrOf_variant _ 0 0]
  exact (Instr_eq_instr _).1

theorem variantOf_eq_halt (b : Byte) : variantOf b = .halt ↔ b = 0xFF :=
  forall_byte (p := fun b => variantOf b = .halt ↔ b = 0xFF) (by decide +kernel) b

/-- Every exposed variant has its byte: the first of the encoding of its instruction. -/
theorem variantOf_head (v : Variant) (h : v.exposed baRefPairs = true) :
    variantOf ((encode (v.instr 0 0)).headD 0) = v := by
  cases v with
  | alu op d r => cases op <;> cases d <;> cases r <;> first | rfl | cases h
  | ld r => cases r <;> rfl
  | st r => cases r <;> rfl
  | cmp kind r => cases kind <;> cases r <;> rfl
  | rot dir r => cases dir <;> cases r <;> rfl
  | _ => rfl

/-- BA-REF is admissible ("BA-REF satisfies every constraint of rule R320 and rule R321", R330). -/
theorem baRefWith_admissible (preset : CmpPreset) : (baRefWith preset).Admissible where
  haltIsTopByte b := by rw [opcodeMap_baRefWith]; exact variantOf_eq_halt b
  everyVariantBound v h := ⟨_, by rw [opcodeMap_baRefWith]; exact variantOf_head v h⟩
  onlyExposedBound b := by rw [opcodeMap_baRefWith]; exact variantOf_exposed b
  pairsProper _ := ⟨.A, .A, rfl⟩
  addABExposed := rfl

/-- The operand bytes a variant reads are those after the opcode byte. -/
theorem execVariant_fetched (P : Params) (v : Variant) (s u : State) :
    execVariant P v (fetchOperands v.format (s.advance 1)).1
        (fetchOperands v.format (s.advance 1)).2.1 u
      = execVariant P v (s.memRead (s.ip + 1)) (s.memRead (s.ip + 2)) u := by
  have e8 : (fetchOperands .f8 (s.advance 1)).1 = s.memRead (s.ip + 1) := by
    simp [fetchOperands, fetch8]
  have elo : (fetchOperands .f16 (s.advance 1)).1 = s.memRead (s.ip + 1) := by
    simp [fetchOperands, fetch8, fetch16]
  have ehi : (fetchOperands .f16 (s.advance 1)).2.1 = s.memRead (s.ip + 2) := by
    simp [fetchOperands, fetch8, fetch16, BitVec.add_assoc]
  cases v <;> simp only [execVariant, Variant.format, e8, elo, ehi]

/-- A Running machine's step under any parameters (R310). -/
theorem paramStep_running (P : Params) {s : State} (h : s.halted = false) :
    paramStep P s = complete (s.memRead s.ip) (P.opcodeMap (s.memRead s.ip))
      (execVariant P (P.opcodeMap (s.memRead s.ip)) (s.memRead (s.ip + 1)) (s.memRead (s.ip + 2))
        (s.advance (1 + (P.opcodeMap (s.memRead s.ip)).format.operands))) := by
  rw [paramStep, if_neg (by simp [h])]
  simp only [fetch8]
  rw [fetchOperands_state, State.advance_advance, execVariant_fetched]

theorem paramStep_halted (P : Params) {s : State} (h : s.halted = true) :
    paramStep P s = .next s := if_pos h

end Sys2Proof.Machine
end

