-- ==== Sys2Proof/Laws/PerInstr.lean ====
section
/-! SUPPORT. Per-instruction laws about syntax: the family `EncodedLength`, one lemma per
constructor of `Instr`. -/

namespace Sys2Proof.Laws.EncodedLength

/-- An instruction's encoding has the length its variant's format gives it (R302, R303). -/
def Statement (i : Instr) : Prop :=
  (encode i).length = 1 + i.variant.format.operands

theorem nop : Statement (.nop) := rfl
theorem setf : Statement (.setf) := rfl
theorem clrf : Statement (.clrf) := rfl
theorem jmp (a : Addr) : Statement (.jmp a) := rfl
theorem ldA (a : Addr) : Statement (.ldA a) := rfl
theorem ldB (a : Addr) : Statement (.ldB a) := rfl
theorem ldC (a : Addr) : Statement (.ldC a) := rfl
theorem ldD (a : Addr) : Statement (.ldD a) := rfl
theorem stA (a : Addr) : Statement (.stA a) := rfl
theorem stB (a : Addr) : Statement (.stB a) := rfl
theorem stC (a : Addr) : Statement (.stC a) := rfl
theorem stD (a : Addr) : Statement (.stD a) := rfl
theorem jr (d : Byte) : Statement (.jr d) := rfl
theorem wip (a : Addr) : Statement (.wip a) := rfl
theorem br (d : Byte) : Statement (.br d) := rfl
theorem out (a : Addr) : Statement (.out a) := rfl
theorem cmpltA (a : Addr) : Statement (.cmpltA a) := rfl
theorem cmpltB (a : Addr) : Statement (.cmpltB a) := rfl
theorem cmpltC (a : Addr) : Statement (.cmpltC a) := rfl
theorem cmpltD (a : Addr) : Statement (.cmpltD a) := rfl
theorem cmpgtA (a : Addr) : Statement (.cmpgtA a) := rfl
theorem cmpgtB (a : Addr) : Statement (.cmpgtB a) := rfl
theorem cmpgtC (a : Addr) : Statement (.cmpgtC a) := rfl
theorem cmpgtD (a : Addr) : Statement (.cmpgtD a) := rfl
theorem cmpeqA (a : Addr) : Statement (.cmpeqA a) := rfl
theorem cmpeqB (a : Addr) : Statement (.cmpeqB a) := rfl
theorem cmpeqC (a : Addr) : Statement (.cmpeqC a) := rfl
theorem cmpeqD (a : Addr) : Statement (.cmpeqD a) := rfl
theorem rolA (n : Byte) : Statement (.rolA n) := rfl
theorem rolB (n : Byte) : Statement (.rolB n) := rfl
theorem rolC (n : Byte) : Statement (.rolC n) := rfl
theorem rolD (n : Byte) : Statement (.rolD n) := rfl
theorem rorA (n : Byte) : Statement (.rorA n) := rfl
theorem rorB (n : Byte) : Statement (.rorB n) := rfl
theorem rorC (n : Byte) : Statement (.rorC n) := rfl
theorem rorD (n : Byte) : Statement (.rorD n) := rfl
theorem addAB : Statement (.addAB) := rfl
theorem addAC : Statement (.addAC) := rfl
theorem addAD : Statement (.addAD) := rfl
theorem addBA : Statement (.addBA) := rfl
theorem addBC : Statement (.addBC) := rfl
theorem addBD : Statement (.addBD) := rfl
theorem addCA : Statement (.addCA) := rfl
theorem addCB : Statement (.addCB) := rfl
theorem addCD : Statement (.addCD) := rfl
theorem addDA : Statement (.addDA) := rfl
theorem addDB : Statement (.addDB) := rfl
theorem addDC : Statement (.addDC) := rfl
theorem subAB : Statement (.subAB) := rfl
theorem subAC : Statement (.subAC) := rfl
theorem subAD : Statement (.subAD) := rfl
theorem subBA : Statement (.subBA) := rfl
theorem subBC : Statement (.subBC) := rfl
theorem subBD : Statement (.subBD) := rfl
theorem subCA : Statement (.subCA) := rfl
theorem subCB : Statement (.subCB) := rfl
theorem subCD : Statement (.subCD) := rfl
theorem subDA : Statement (.subDA) := rfl
theorem subDB : Statement (.subDB) := rfl
theorem subDC : Statement (.subDC) := rfl
theorem andAB : Statement (.andAB) := rfl
theorem andAC : Statement (.andAC) := rfl
theorem andAD : Statement (.andAD) := rfl
theorem andBA : Statement (.andBA) := rfl
theorem andBC : Statement (.andBC) := rfl
theorem andBD : Statement (.andBD) := rfl
theorem andCA : Statement (.andCA) := rfl
theorem andCB : Statement (.andCB) := rfl
theorem andCD : Statement (.andCD) := rfl
theorem andDA : Statement (.andDA) := rfl
theorem andDB : Statement (.andDB) := rfl
theorem andDC : Statement (.andDC) := rfl
theorem xorAB : Statement (.xorAB) := rfl
theorem xorAC : Statement (.xorAC) := rfl
theorem xorAD : Statement (.xorAD) := rfl
theorem xorBA : Statement (.xorBA) := rfl
theorem xorBC : Statement (.xorBC) := rfl
theorem xorBD : Statement (.xorBD) := rfl
theorem xorCA : Statement (.xorCA) := rfl
theorem xorCB : Statement (.xorCB) := rfl
theorem xorCD : Statement (.xorCD) := rfl
theorem xorDA : Statement (.xorDA) := rfl
theorem xorDB : Statement (.xorDB) := rfl
theorem xorDC : Statement (.xorDC) := rfl
theorem orAB : Statement (.orAB) := rfl
theorem orAC : Statement (.orAC) := rfl
theorem orAD : Statement (.orAD) := rfl
theorem orBA : Statement (.orBA) := rfl
theorem orBC : Statement (.orBC) := rfl
theorem orBD : Statement (.orBD) := rfl
theorem orCA : Statement (.orCA) := rfl
theorem orCB : Statement (.orCB) := rfl
theorem orCD : Statement (.orCD) := rfl
theorem orDA : Statement (.orDA) := rfl
theorem orDB : Statement (.orDB) := rfl
theorem orDC : Statement (.orDC) := rfl
theorem halt : Statement (.halt) := rfl

end Sys2Proof.Laws.EncodedLength
end

