-- ==== Sys2Proof/Laws/Relation.lean ====
section
/-! SUPPORT. What the operations do to the two parts of State: fetching and every variant but OUT
change the machine state by a function of it alone and leave the surroundings as they are. -/

namespace Sys2Proof.Machine

/-! ### The surroundings under each operation on the machine state -/

@[simp] theorem State.toSurroundings_setReg (s : State) (r : Reg) (v : Byte) :
    (s.setReg r v).toSurroundings = s.toSurroundings := by cases r <;> rfl
@[simp] theorem State.toSurroundings_advance (s : State) (n : Nat) :
    (s.advance n).toSurroundings = s.toSurroundings := rfl
@[simp] theorem State.toSurroundings_jump (s : State) (a : Addr) :
    (s.jump a).toSurroundings = s.toSurroundings := rfl
@[simp] theorem State.toSurroundings_memWrite (s : State) (a : Addr) (v : Byte) :
    (s.memWrite a v).toSurroundings = s.toSurroundings := rfl
@[simp] theorem State.toSurroundings_memWrite16 (s : State) (a w : Addr) :
    (s.memWrite16 a w).toSurroundings = s.toSurroundings := rfl
@[simp] theorem State.toSurroundings_setFlag (s : State) :
    s.setFlag.toSurroundings = s.toSurroundings := rfl
@[simp] theorem State.toSurroundings_clearFlag (s : State) :
    s.clearFlag.toSurroundings = s.toSurroundings := rfl
@[simp] theorem State.toSurroundings_halt (s : State) :
    s.halt.toSurroundings = s.toSurroundings := rfl

/-! ### The machine state under each operation on the surroundings -/

@[simp] theorem State.toMachineState_emit (s : State) (b : Byte) :
    (s.emit b).toMachineState = s.toMachineState := rfl
@[simp] theorem State.toMachineState_observe (s : State) (b : Byte) (v : Variant) :
    (s.observe b v).toMachineState = s.toMachineState := by unfold State.observe; split <;> rfl

@[simp] theorem Surroundings.sinkAccepts_answering (m : MachineState) (accepts : Bool) :
    State.sinkAccepts { toMachineState := m, toSurroundings := .answering accepts } = accepts := by
  cases accepts <;> rfl

/-- Fetching operands depends on the machine state alone and keeps the surroundings. -/
theorem fetchOperands_surroundings (f : Format) (m : MachineState) : ∃ lo hi m', ∀ e,
    fetchOperands f { toMachineState := m, toSurroundings := e }
      = (lo, hi, { toMachineState := m', toSurroundings := e }) := by
  let o := fetchOperands f { toMachineState := m, toSurroundings := .reset }
  exact ⟨o.1, o.2.1, o.2.2.toMachineState, fun e => by cases f <;> rfl⟩

/-- A register write depends on the machine state alone and keeps the surroundings. -/
theorem State.setReg_surroundings (m : MachineState) (r : Reg) (v : Byte) : ∃ m', ∀ e,
    State.setReg { toMachineState := m, toSurroundings := e } r v
      = { toMachineState := m', toSurroundings := e } :=
  ⟨(State.setReg { toMachineState := m, toSurroundings := .reset } r v).toMachineState,
    fun e => by cases r <;> rfl⟩

/-- Every variant but OUT completes with a machine state that depends on the machine state alone,
and keeps the surroundings. -/
theorem execVariant_surroundings (P : Params) (v : Variant) (lo hi : Byte) (m : MachineState)
    (hv : v ≠ .out) : ∃ m', ∀ e,
    execVariant P v lo hi { toMachineState := m, toSurroundings := e }
      = .next { toMachineState := m', toSurroundings := e } := by
  let s : State := { toMachineState := m, toSurroundings := .reset }
  have reg (e : Surroundings) (q : Reg) :
      State.reg { toMachineState := m, toSurroundings := e } q = s.reg q := by cases q <;> rfl
  have mem (e : Surroundings) (a : Addr) :
      State.memRead { toMachineState := m, toSurroundings := e } a = s.memRead a := rfl
  have write (q : Reg) (x : Byte) := State.setReg_surroundings m q x
  cases v with
  | nop => exact ⟨m, fun e => rfl⟩
  | ld r =>
    obtain ⟨m', h⟩ := write r (s.memRead (word16 hi lo))
    exact ⟨m', fun e => congrArg _ (h e)⟩
  | st r => exact ⟨(store r (word16 hi lo) s).toMachineState, fun e => by cases r <;> rfl⟩
  | setf => exact ⟨s.setFlag.toMachineState, fun e => rfl⟩
  | clrf => exact ⟨s.clearFlag.toMachineState, fun e => rfl⟩
  | alu op d r =>
    obtain ⟨m', h⟩ := write d (aluResult op (s.reg d) (s.reg r))
    exact ⟨m', fun e => by simp only [execVariant, alu, reg, h]⟩
  | jmp => exact ⟨(s.jump (word16 hi lo)).toMachineState, fun e => rfl⟩
  | jr => exact ⟨(s.advance (displacement lo)).toMachineState, fun e => rfl⟩
  | wip => exact ⟨(s.memWrite16 (word16 hi lo) s.ip).toMachineState, fun e => rfl⟩
  | br =>
    cases h : m.flag
    · exact ⟨m, fun e => by simp only [execVariant, h, Bool.false_eq_true, if_false]⟩
    · exact ⟨(s.clearFlag.advance (displacement lo)).toMachineState, fun e => by
        simp only [execVariant, h, if_true]; rfl⟩
  | cmp kind r =>
    cases h : P.cmpRel kind (s.reg (P.cmpSel kind r)) (s.memRead (word16 hi lo))
    · exact ⟨m, fun e => congrArg _ (if_neg (by simpa [reg, mem] using h))⟩
    · exact ⟨s.setFlag.toMachineState, fun e => congrArg _ (if_pos (by simpa [reg, mem] using h))⟩
  | rot dir r =>
    obtain ⟨m', h⟩ := write r (rotResult dir (s.reg r) (shiftCount lo))
    exact ⟨m', fun e => by simp only [execVariant, rotate, reg, h]⟩
  | out => exact absurd rfl hv
  | halt =>
    cases h : haltCondition s
    · exact ⟨m, fun e => congrArg _ (if_neg (by simpa [haltCondition, reg] using h))⟩
    · exact ⟨s.halt.toMachineState, fun e =>
        congrArg _ (if_pos (by simpa [haltCondition, reg] using h))⟩

end Sys2Proof.Machine
end

