-- ==== Sys2Proof/Tests/Slice0.lean ====
section
/-! SUPPORT. The model's own tests: the checks of WellFormed refuse ill-formed terms; every
constructor's decoding, from bytes written out from the table of spec/30_encoding.md R330; one-step
vectors of spec/95_test_vectors.md (each named by its id there: the expected values are the spec's);
and, for every statement with hypotheses, a concrete state and operands that meet them. -/

namespace Sys2Proof.Tests

open Sys2Proof.Machine Sys2Proof.Frame

/-! ### Helpers -/

/-- The all-zero construction with the bytes at `a0` and the pointer there. -/
def prog (a0 : Addr) (bytes : List Byte) : State :=
  { State.reset with ip := a0, mem := Memory.ofBytes a0.toNat bytes }

def withRegs (a b c d : Byte) (s : State) : State := { s with regs := ⟨a, b, c, d⟩ }

def withFlag (s : State) : State := { s with flag := true }

/-- The state after one step, if the step completes. -/
def after (s : State) : Option State :=
  match step s with
  | .next t => some t
  | _ => none

/-- The state after one step under other parameters. -/
def afterWith (P : Params) (s : State) : Option State :=
  match paramStep P s with
  | .next t => some t
  | _ => none

def instr? (bytes : List Byte) : Option Instr :=
  match decode bytes with
  | .ok (i, []) => some i
  | _ => none

/-! ### WellFormed: an ill-formed term for each check -/

/-- A parameter set that assigns no byte. -/
def unassigned : Params := { baRef with assign := fun _ => none }

theorem test_refuses_map_without_halt : ¬ unassigned.HaltIsTopByte := fun h =>
  Variant.noConfusion ((h 0xFF).2 rfl)

theorem test_refuses_map_without_setf : ¬ unassigned.EveryVariantBound := fun h =>
  (h .setf rfl).elim fun _ e => Variant.noConfusion e

theorem test_refuses_unexposed_alu_byte :
    ¬ { baRef with aluPairs := fun _ _ _ => false : Params }.OnlyExposedBound := fun h =>
  absurd (h 0x31) (by decide)

theorem test_refuses_all_sixteen_pairs :
    ¬ { baRef with aluPairs := fun _ _ _ => true : Params }.PairsProper := fun h =>
  (h .add).elim fun _ ⟨_, e⟩ => Bool.noConfusion e

theorem test_refuses_no_add_a_b :
    ¬ { baRef with aluPairs := fun _ _ _ => false : Params }.AddABExposed := by
  simp [Params.AddABExposed]

theorem test_equal_registers_not_exposed :
    (Variant.alu .add .A .A).exposed baRefPairs = false := by decide

theorem test_refuses_short_image : wellFormedImage [0x03, 0x10, 0x00] = false := by decide

theorem test_short_image_constructs_nothing : constructImage [0x03] = none := by decide

/-! ### Decoding, from bytes of R330 -/

theorem test_decode_plain :
    instr? [0x00] = some .nop ∧ instr? [0x01] = some .setf ∧ instr? [0x02] = some .clrf ∧
    instr? [0xFF] = some .halt := by decide

theorem test_decode_control :
    instr? [0x03, 0x10, 0x00] = some (.jmp 0x0010) ∧ instr? [0x0C, 0xFE] = some (.jr 0xFE) ∧
    instr? [0x0D, 0x00, 0x80] = some (.wip 0x8000) ∧ instr? [0x0E, 0x0A] = some (.br 0x0A) ∧
    instr? [0x0F, 0x02, 0x01] = some (.out 0x0102) := by decide

theorem test_decode_load_store :
    instr? [0x04, 0x34, 0x12] = some (.ldA 0x1234) ∧
    instr? [0x05, 0x34, 0x12] = some (.ldB 0x1234) ∧
    instr? [0x06, 0x34, 0x12] = some (.ldC 0x1234) ∧
    instr? [0x07, 0x34, 0x12] = some (.ldD 0x1234) ∧
    instr? [0x08, 0x34, 0x12] = some (.stA 0x1234) ∧
    instr? [0x09, 0x34, 0x12] = some (.stB 0x1234) ∧
    instr? [0x0A, 0x34, 0x12] = some (.stC 0x1234) ∧
    instr? [0x0B, 0x34, 0x12] = some (.stD 0x1234) := by decide

theorem test_decode_compare :
    instr? [0x10, 0x00, 0x20] = some (.cmpltA 0x2000) ∧
    instr? [0x11, 0x00, 0x20] = some (.cmpltB 0x2000) ∧
    instr? [0x12, 0x00, 0x20] = some (.cmpltC 0x2000) ∧
    instr? [0x13, 0x00, 0x20] = some (.cmpltD 0x2000) ∧
    instr? [0x14, 0x00, 0x20] = some (.cmpgtA 0x2000) ∧
    instr? [0x15, 0x00, 0x20] = some (.cmpgtB 0x2000) ∧
    instr? [0x16, 0x00, 0x20] = some (.cmpgtC 0x2000) ∧
    instr? [0x17, 0x00, 0x20] = some (.cmpgtD 0x2000) ∧
    instr? [0x18, 0x00, 0x20] = some (.cmpeqA 0x2000) ∧
    instr? [0x19, 0x00, 0x20] = some (.cmpeqB 0x2000) ∧
    instr? [0x1A, 0x00, 0x20] = some (.cmpeqC 0x2000) ∧
    instr? [0x1B, 0x00, 0x20] = some (.cmpeqD 0x2000) := by decide

theorem test_decode_rotate :
    instr? [0x1C, 0x09] = some (.rolA 0x09) ∧ instr? [0x1D, 0x09] = some (.rolB 0x09) ∧
    instr? [0x1E, 0x09] = some (.rolC 0x09) ∧ instr? [0x1F, 0x09] = some (.rolD 0x09) ∧
    instr? [0x20, 0x09] = some (.rorA 0x09) ∧ instr? [0x21, 0x09] = some (.rorB 0x09) ∧
    instr? [0x22, 0x09] = some (.rorC 0x09) ∧ instr? [0x23, 0x09] = some (.rorD 0x09) := by decide

theorem test_decode_add :
    instr? [0x31] = some .addAB ∧ instr? [0x32] = some .addAC ∧
    instr? [0x33] = some .addAD ∧ instr? [0x34] = some .addBA ∧
    instr? [0x36] = some .addBC ∧ instr? [0x37] = some .addBD ∧
    instr? [0x38] = some .addCA ∧ instr? [0x39] = some .addCB ∧
    instr? [0x3B] = some .addCD ∧ instr? [0x3C] = some .addDA ∧
    instr? [0x3D] = some .addDB ∧ instr? [0x3E] = some .addDC := by decide

theorem test_decode_sub :
    instr? [0x41] = some .subAB ∧ instr? [0x42] = some .subAC ∧
    instr? [0x43] = some .subAD ∧ instr? [0x44] = some .subBA ∧
    instr? [0x46] = some .subBC ∧ instr? [0x47] = some .subBD ∧
    instr? [0x48] = some .subCA ∧ instr? [0x49] = some .subCB ∧
    instr? [0x4B] = some .subCD ∧ instr? [0x4C] = some .subDA ∧
    instr? [0x4D] = some .subDB ∧ instr? [0x4E] = some .subDC := by decide

theorem test_decode_and :
    instr? [0x51] = some .andAB ∧ instr? [0x52] = some .andAC ∧
    instr? [0x53] = some .andAD ∧ instr? [0x54] = some .andBA ∧
    instr? [0x56] = some .andBC ∧ instr? [0x57] = some .andBD ∧
    instr? [0x58] = some .andCA ∧ instr? [0x59] = some .andCB ∧
    instr? [0x5B] = some .andCD ∧ instr? [0x5C] = some .andDA ∧
    instr? [0x5D] = some .andDB ∧ instr? [0x5E] = some .andDC := by decide

theorem test_decode_xor :
    instr? [0x61] = some .xorAB ∧ instr? [0x62] = some .xorAC ∧
    instr? [0x63] = some .xorAD ∧ instr? [0x64] = some .xorBA ∧
    instr? [0x66] = some .xorBC ∧ instr? [0x67] = some .xorBD ∧
    instr? [0x68] = some .xorCA ∧ instr? [0x69] = some .xorCB ∧
    instr? [0x6B] = some .xorCD ∧ instr? [0x6C] = some .xorDA ∧
    instr? [0x6D] = some .xorDB ∧ instr? [0x6E] = some .xorDC := by decide

theorem test_decode_or :
    instr? [0x71] = some .orAB ∧ instr? [0x72] = some .orAC ∧
    instr? [0x73] = some .orAD ∧ instr? [0x74] = some .orBA ∧
    instr? [0x76] = some .orBC ∧ instr? [0x77] = some .orBD ∧
    instr? [0x78] = some .orCA ∧ instr? [0x79] = some .orCB ∧
    instr? [0x7B] = some .orCD ∧ instr? [0x7C] = some .orDA ∧
    instr? [0x7D] = some .orDB ∧ instr? [0x7E] = some .orDC := by decide

theorem test_decode_short_list :
    decode [] = .error .noOpcode ∧ decode [0x0C] = .error (.missingOperand 0x0C) ∧
    decode [0x04, 0x34] = .error (.missingOperand 0x04) := ⟨rfl, rfl, rfl⟩

/-- R332: 97 bytes are explicitly assigned and 159 are not. -/
theorem test_count_of_assigned_bytes :
    ((List.range 256).filter fun n => (baRefAssign (BitVec.ofNat 8 n)).isSome).length = 97 := by
  decide +kernel

/-- R332: the unassigned bytes that are neither 0x24..0x2F nor 0x80..0xFE are the d = s slots. -/
theorem test_unassigned_alu_slots :
    ((List.range 0x80).filter fun n => decide (0x30 ≤ n) && variantOf (BitVec.ofNat 8 n) == .nop)
      = [0x30, 0x35, 0x3A, 0x3F, 0x40, 0x45, 0x4A, 0x4F, 0x50, 0x55, 0x5A, 0x5F,
         0x60, 0x65, 0x6A, 0x6F, 0x70, 0x75, 0x7A, 0x7F] := by
  decide +kernel

theorem test_table_word : decodeTableWord 24 0x123404 = some (.ldA 0x1234) ∧
    decodeTableWord 8 0x123404 = some (.ldA 0x0000) ∧ decodeTableWord 8 0xFF = some .halt := by
  decide

theorem test_fetch_word_after_reset :
    (after (State.reset.withFetchWord 24 0x001003)).map (fun t => t.ip) = some 0x0010 := by decide

/-! ### One step, the vectors of spec/95_test_vectors.md -/

theorem test_V7_nop_wraps : (after (prog 0xFFFF [0x00])).map (fun t => t.ip) = some 0x0000 := by
  decide

theorem test_V8_unassigned_is_nop :
    (after (withFlag (withRegs 0x12 0 0 0 (prog 0x0010 [0x90])))).map
      (fun t => (t.ip, t.flag, t.reg .A)) = some (0x0011, true, 0x12) := by decide

theorem test_V10_ld :
    (after ((prog 0 [0x04, 0x34, 0x12]).memWrite 0x1234 0x7E)).map (fun t => (t.reg .A, t.ip))
      = some (0x7E, 0x0003) := by decide

theorem test_V11_ld_straddles :
    (after (((prog 0xFFFE [0x07, 0x00]).memWrite 0x0000 0x20).memWrite 0x2000 0x11)).map
      (fun t => (t.reg .D, t.ip)) = some (0x11, 0x0001) := by decide

theorem test_V13_st :
    (after (withRegs 0 0x99 0 0 (prog 0 [0x09, 0x00, 0x20]))).map
      (fun t => (t.memRead 0x2000, t.ip)) = some (0x99, 0x0003) := by decide

theorem test_V15_st_over_itself :
    (after (withRegs 0 0 0xFF 0 (prog 0 [0x0A, 0x00, 0x00]))).map
      (fun t => (t.memRead 0x0000, t.ip)) = some (0xFF, 0x0003) := by decide

theorem test_V20_setf : (after (prog 0x0010 [0x01])).map (fun t => (t.flag, t.ip))
    = some (true, 0x0011) := by decide

theorem test_V22_clrf : (after (withFlag (prog 0x0010 [0x02]))).map (fun t => (t.flag, t.ip))
    = some (false, 0x0011) := by decide

theorem test_V33_add_wraps :
    (after (withRegs 0xFA 0xFA 0 0 (prog 0 [0x31]))).map (fun t => (t.reg .A, t.reg .B))
      = some (0xF4, 0xFA) := by decide

theorem test_V42_add_keeps_flag :
    (after (withFlag (withRegs 0xFF 0x01 0 0 (prog 0 [0x31])))).map (fun t => (t.reg .A, t.flag))
      = some (0x00, true) := by decide

theorem test_V35_sub_wraps :
    (after (withRegs 0x03 0x05 0 0 (prog 0 [0x41]))).map (fun t => t.reg .A) = some 0xFE := by
  decide

theorem test_V37_sub_d_c :
    (after (withRegs 0 0 0x10 0x20 (prog 0 [0x4E]))).map (fun t => (t.reg .D, t.reg .C))
      = some (0x10, 0x10) := by decide

theorem test_V38_and : (after (withRegs 0 0 0xF0 0x3C (prog 0 [0x5B]))).map (fun t => t.reg .C)
    = some 0x30 := by decide

theorem test_V39_xor : (after (withRegs 0xFF 0xAA 0 0 (prog 0 [0x64]))).map (fun t => t.reg .B)
    = some 0x55 := by decide

theorem test_V41_or : (after (withRegs 0 0 0xF0 0x0F (prog 0 [0x7E]))).map (fun t => t.reg .D)
    = some 0xFF := by decide

theorem test_V50_jmp : after (prog 0 [0x03, 0x10, 0x00])
    = some { prog 0 [0x03, 0x10, 0x00] with ip := 0x0010 } := by decide

theorem test_V51_jmp_straddles :
    (after ((prog 0xFFFE [0x03, 0x34]).memWrite 0x0000 0x12)).map (fun t => t.ip)
      = some 0x1234 := by decide

theorem test_V55_jr_wraps : (after (prog 0xFFF0 [0x0C, 0x20])).map (fun t => t.ip)
    = some 0x0012 := by decide

theorem test_V56_jr_unsigned : (after (prog 0 [0x0C, 0xFF])).map (fun t => t.ip)
    = some 0x0101 := by decide

theorem test_V58_wip :
    (after (prog 0x1000 [0x0D, 0x00, 0x80])).map
      (fun t => (t.memRead 0x8000, t.memRead 0x8001, t.ip)) = some (0x03, 0x10, 0x1003) := by decide

theorem test_V59_wip_wraps :
    (after (prog 0 [0x0D, 0xFF, 0xFF])).map
      (fun t => (t.memRead 0xFFFF, t.memRead 0x0000, t.ip)) = some (0x03, 0x00, 0x0003) := by decide

theorem test_V61_br_taken :
    (after (withFlag (prog 0 [0x0E, 0x0A]))).map (fun t => (t.ip, t.flag))
      = some (0x000C, false) := by decide

theorem test_V62_br_not_taken :
    (after (prog 0 [0x0E, 0x0A])).map (fun t => (t.ip, t.flag)) = some (0x0002, false) := by decide

theorem test_V64_br_wraps :
    (after (withFlag (prog 0xFFFE [0x0E, 0x10]))).map (fun t => (t.ip, t.flag))
      = some (0x0010, false) := by decide

/-- F after each comparison of V70 to V81, in their order (CMPLT, CMPGT, CMPEQ of A to D). -/
def comparisons (P : Params) : List (Option Bool) :=
  [0x10, 0x11, 0x12, 0x13, 0x14, 0x15, 0x16, 0x17, 0x18, 0x19, 0x1A, 0x1B].map fun b =>
    (afterWith P ((withRegs 0x05 0x02 0x09 0x05 (prog 0 [b, 0x00, 0x20])).memWrite 0x2000 0x05)).map
      fun t => t.flag

theorem test_V70_to_V81_intended : comparisons (baRefWith .intended) =
    [false, true, false, false, false, false, true, false, true, false, false, true].map some := by
  decide +kernel

/-- R482: V71, V76, V78, V80 and V81 differ between the presets. -/
theorem test_V70_to_V81_observed : comparisons (baRefWith .observed) =
    [false, false, false, false, false, false, false, false, false, false, true, false].map some := by
  decide +kernel

theorem test_V71_cmplt_b :
    (after ((withRegs 0x05 0x02 0x09 0x05 (prog 0 [0x11, 0x00, 0x20])).memWrite 0x2000 0x05)).map
      (fun t => (t.flag, t.ip)) = some (true, 0x0003) := by decide

theorem test_V84_cmpgt_unsigned :
    (after ((withRegs 0x80 0 0 0 (prog 0 [0x14, 0x00, 0x20])).memWrite 0x2000 0x7F)).map
      (fun t => t.flag) = some true := by decide

theorem test_V86_failed_compare_keeps_flag :
    (after ((withFlag (withRegs 0x05 0 0 0 (prog 0 [0x10, 0x00, 0x20]))).memWrite 0x2000 0x05)).map
      (fun t => t.flag) = some true := by decide

theorem test_V87_cmpeq_b :
    (after ((withRegs 0 0x42 0 0 (prog 0 [0x19, 0x00, 0x03])).memWrite 0x0300 0x42)).map
      (fun t => t.flag) = some true ∧
    (afterWith (baRefWith .observed)
      ((withRegs 0 0x42 0 0 (prog 0 [0x19, 0x00, 0x03])).memWrite 0x0300 0x42)).map
      (fun t => t.flag) = some false := by decide

theorem test_V93_V94_rotates :
    (after (withRegs 0x81 0 0 0 (prog 0 [0x1C, 0x09]))).map (fun t => t.reg .A) = some 0x03 ∧
    (after (withRegs 0x81 0 0 0 (prog 0 [0x20, 0xFF]))).map (fun t => (t.reg .A, t.ip))
      = some (0x03, 0x0002) := by decide

theorem test_V98_rotates :
    (after (withRegs 0 0 0 0xB4 (prog 0 [0x1F, 0x03]))).map (fun t => t.reg .D) = some 0xA5 ∧
    (after (withRegs 0 0 0 0xB4 (prog 0 [0x23, 0x03]))).map (fun t => t.reg .D) = some 0x96 := by
  decide

theorem test_V100_out :
    (after ((prog 0x000A [0x0F, 0x02, 0x01]).memWrite 0x0102 0x08)).map (fun t => (t.out, t.ip))
      = some ([0x08], 0x000D) := by decide

/-- V102: the sink rejects. -/
def rejecting : State :=
  { (prog 0x000A [0x0F, 0x02, 0x01]).memWrite 0x0102 0x08 with sinkLimit := some 0 }

theorem test_V102_sink_fault :
    runUpTo 2 rejecting = ⟨.sinkFault, { rejecting with ip := 0x000D }⟩ := by decide

/-- V103: the halt condition holds. -/
def halting : State := withFlag (withRegs 0xFF 0xFF 0xFF 0xFF (prog 0x001A [0xFF]))

theorem test_V103_halt :
    (after halting).map (fun t => (t.status, t.ip, t.flag)) = some (.halted, 0x001B, true) := by
  decide

theorem test_V104_failed_halt :
    (after (withFlag (withRegs 0xFF 0xFF 0xFF 0xFE (prog 0 [0xFF])))).map
      (fun t => (t.status, t.ip)) = some (.running, 0x0001) := by decide

/-- V107: a Halted machine, with an observer attached. -/
def halted : State := { prog 0x001B [0x01] with halted := true, observing := true }

theorem test_V107_halted_step : after halted = some halted := by decide

theorem test_observer_record :
    (after { prog 0x0010 [0x01] with observing := true }).map (fun t => t.trace)
      = some [⟨⟨0, 0, 0, 0⟩, 0x0011, true, false, 0x01, .setf⟩] := by decide

/-! ### Witnesses: concrete states that meet the hypotheses of the statements -/

theorem witness_AdvanceAndJumpSetThePointer : (prog 0xFFFF []).ip.toNat = 65535 := by decide

theorem witness_TwoByteReadIsLittleEndianAndWraps :
    (0x0000 : Addr).toNat = ((0xFFFF : Addr).toNat + 1) % 65536 := by decide

theorem witness_WritesChangeExactlyTheirBytes :
    State.reset.Inv ∧ (0x0000 : Addr) = 0xFFFF + 1 ∧
    ((0x0001 : Addr) ≠ 0xFFFF ∧ (0x0001 : Addr) ≠ 0xFFFF + 1) ∧
    exec (.stA 0x2000) State.reset = .next State.reset ∧
    (∀ a, Instr.stA 0x2000 ≠ .wip a) ∧
    (∀ r a, Instr.stA 0x2000 = Instr.st r a → (0x2001 : Addr) ≠ a) := by
  refine ⟨Memory.wf_nil, by decide, by decide, rfl, fun a => by simp, fun r a h => ?_⟩
  cases r <;> cases h
  decide

theorem witness_FetchSixteenTakesLowByteFirst : (prog 0xFFFF []).ip = 0xFFFF := rfl

theorem witness_EncodeOfDecodeIsTheBytes :
    (baRefAssign 0x04).isSome = true ∧
    decode [0x04, 0x34, 0x12, 0xFF] = .ok (.ldA 0x1234, [0xFF]) := ⟨by decide, rfl⟩

theorem witness_EveryOpcodeByteDecodes :
    lengthOf 0x04 ≤ [0x34, 0x12].length + 1 ∧ [0x34].length + 1 < lengthOf 0x04 ∧
    lengthOf 0x00 ≤ ([] : List Byte).length + 1 ∧ ([] : List Byte).length + 1 < lengthOf 0x0C := by
  decide

theorem witness_StepRunsTheDecodedInstruction :
    halted.halted = true ∧ (prog 0xFFFF [0x05]).halted = false ∧
    decode [(prog 0xFFFF [0x05]).memRead 0xFFFF, (prog 0xFFFF [0x05]).memRead 0x0000,
      (prog 0xFFFF [0x05]).memRead 0x0001] = .ok (.ldB 0x0000, []) := ⟨rfl, rfl, rfl⟩

theorem witness_StepKeepsMemoryCanonical :
    rejecting.Inv ∧ step rejecting = .fault (.sinkFault 0x08 (rejecting.advance 3)) ∧
    halting.Inv ∧ (after halting).isSome :=
  ⟨(by decide : rejecting.mem.wf), rfl, (by decide : halting.mem.wf), by decide⟩

theorem witness_ImageConstructionLoadsEveryByte :
    (List.replicate 65536 (0x5A : Byte)).length = 65536 ∧ ([] : List Byte).length ≠ 65536 :=
  ⟨List.length_replicate, by decide⟩

theorem witness_RandomConstructionFillsInOrder :
    65536 ≤ (List.replicate 65536 (0x5A : Byte)).length ∧
    (List.replicate 65535 (0x5A : Byte)).length < 65536 := by
  simp only [List.length_replicate]
  decide

theorem witness_PlacedWordIsTheNextInstruction : State.reset.Inv ∧ halting.Inv :=
  ⟨Memory.wf_nil, Memory.wf_ofBytes (by decide)⟩

/-- B is 2 and the byte at 0x2000 is 5: CMPLT B holds and CMPGT B fails. -/
def comparing : State := (withRegs 0 0x02 0 0 State.reset).memWrite 0x2000 0x05

theorem witness_FlagChangesOnlyAsTheTableSays :
    exec .setf comparing = .next comparing.setFlag ∧
    exec .clrf comparing = .next comparing.clearFlag ∧
    exec (Instr.cmp .lt .B 0x2000) comparing = .next comparing.setFlag ∧
    presetRel cmpPreset .lt (comparing.reg (presetSel cmpPreset .lt .B)) (comparing.memRead 0x2000)
      = true ∧
    exec (Instr.cmp .gt .B 0x2000) comparing = .next comparing ∧
    presetRel cmpPreset .gt (comparing.reg (presetSel cmpPreset .gt .B)) (comparing.memRead 0x2000)
      = false ∧
    exec (.br 0) comparing = .next comparing ∧
    comparing.setFlag.flag ≠ comparing.flag :=
  ⟨rfl, rfl, rfl, rfl, rfl, rfl, rfl, by decide⟩

theorem witness_FlagIsAOneShotTrigger :
    step (withFlag (prog 0 [0x02])) = .next ((prog 0 [0x02]).advance 1) ∧
    (withFlag (prog 0 [0x02])).flag = true ∧ ((prog 0 [0x02]).advance 1).flag = false ∧
    (withFlag (prog 0 [0x02])).halted = false ∧
    variantOf ((withFlag (prog 0 [0x02])).memRead 0) = .clrf ∧
    variantOf ((withFlag (prog 0 [0x0E])).memRead 0) = .br ∧
    execAll ([(CmpKind.gt, Reg.B, (0x2000 : Addr))].map fun c => Instr.cmp c.1 c.2.1 c.2.2)
      comparing.setFlag = .next comparing.setFlag := ⟨rfl, rfl, rfl, rfl, rfl, rfl, rfl⟩

theorem witness_RegistersChangeOnlyAsTheTableSays :
    exec (.ldA 0x2000) comparing = .next (comparing.setReg .A 0x05) ∧
    regWritten (Instr.ldA 0x2000).variant ≠ some .B := ⟨rfl, by decide⟩

theorem witness_UnreadRegistersHaveNoInfluence :
    regRead (Instr.ldA 0).variant .A = false ∧ regWritten (Instr.ldA 0).variant = some .A ∧
    regRead (Instr.addAB).variant .C = false ∧ regWritten (Instr.addAB).variant ≠ some .C := by
  decide

/-- One Running state for each line of the table of R114, at a boundary of its range. -/
theorem witness_PointerAfterEachInstruction :
    (after ((prog 0xFFFE [0x03, 0x34]).memWrite 0 0x12)).isSome ∧
    (after (prog 0xFFFE [0x0C, 0xFF])).isSome ∧ (after (withFlag (prog 0xFFFE [0x0E, 0xFF]))).isSome ∧
    (after (prog 0xFFFF [0x0E])).isSome ∧ (after (prog 0xFFFF [0x1C])).isSome ∧
    (after (prog 0xFFFF [0x0F])).isSome ∧ (after (prog 0xFFFF [0xFF])).isSome := by decide

theorem witness_MemoryChangesOnlyWhereStored :
    (prog 0 [0x0D, 0xFF, 0xFF]).Inv ∧
    (after (prog 0 [0x0D, 0xFF, 0xFF])).map (fun t => t.memRead 0x0000) ≠
      some ((prog 0 [0x0D, 0xFF, 0xFF]).memRead 0x0000) ∧
    (after (withRegs 0x5A 0 0 0 (prog 0 [0x08, 0xFF, 0xFF]))).map (fun t => t.memRead 0xFFFF) ≠
      some ((withRegs 0x5A 0 0 0 (prog 0 [0x08, 0xFF, 0xFF])).memRead 0xFFFF) :=
  ⟨Memory.wf_ofBytes (by decide), by decide, by decide⟩

theorem witness_OutputGrowsOnlyByOut :
    (after (prog 0 [0x0F, 0xFF, 0xFF])).map (fun t => t.out) ≠
      some (prog 0 [0x0F, 0xFF, 0xFF]).out := by decide

theorem witness_HaltFlagNeverFalls :
    Sys2Proof.core.run 3 halted = .next halted ∧ halted.halted = true ∧
    step halting = .next (halting.advance 1).halt ∧ halting.halted = false ∧
    (halting.advance 1).halt.halted = true := ⟨rfl, rfl, rfl, rfl, rfl⟩

theorem witness_HaltedMachineStaysAsItIs : halted.halted = true := rfl

theorem witness_OnlyByteFFReachesHalted :
    (baRefWith .observed).Admissible ∧ halting.halted = false ∧
    paramStep (baRefWith .observed) halting = .next (halting.advance 1).halt :=
  ⟨baRefWith_admissible _, rfl, rfl⟩

theorem witness_NoByteTrapsAndUnassignedBytesAreNop :
    State.reset.sinkAccepts = true ∧ (prog 0 [0xFE]).halted = false ∧
    baRef.assign ((prog 0 [0xFE]).memRead (prog 0 [0xFE]).ip) = none := ⟨rfl, rfl, rfl⟩

theorem witness_ObserverGetsTheStateAfterTheStep :
    (after { prog 0 [0x01] with observing := true }).isSome ∧
    (prog 0 [0x01]).halted = false ∧ after halted = some halted ∧ halted.halted = true ∧
    (after (prog 0 [0x01])).isSome ∧ (prog 0 [0x01]).observing = false := by decide

/-- ST D to the address right after it, across 0xFFFF. -/
theorem witness_StoreIsTheNextOpcode :
    let s := withRegs 0 0 0 0x01 ((prog 0xFFFE [0x0B, 0x01]).memWrite 0x0000 0x00)
    s.Inv ∧ At3 s (0x08 + regIndex .D) (s.ip + 3) :=
  ⟨(by decide : Memory.wf ((prog 0xFFFE [0x0B, 0x01]).memWrite 0x0000 0x00).mem), ⟨rfl, rfl⟩, rfl⟩

theorem witness_RunsEndInOneWay :
    (runUpTo 1 halting).kind = .halted ∧ (runUpTo 1 rejecting).kind = .sinkFault ∧
    (runUpTo 1 (prog 0 [0x01])).kind = .stopped := by decide

theorem witness_NopOnlyMovesThePointer :
    At1 (prog 0xFFFF [0x00]) 0x00 ∧ At1 (prog 0xFFFF [0x30]) 0x30 ∧ baRefAssign 0x30 = none :=
  ⟨⟨rfl, rfl⟩, ⟨rfl, rfl⟩, rfl⟩

/-- LD A of its own opcode byte, and a load whose operand straddles 0xFFFF. -/
theorem witness_LoadCopiesTheByte :
    At3 (prog 0x0040 [0x04, 0x40, 0x00]) (0x04 + regIndex .A) 0x0040 ∧
    At3 (prog 0xFFFE [0x07, 0x05]) (0x04 + regIndex .D) 0x0005 :=
  ⟨⟨⟨rfl, rfl⟩, rfl⟩, ⟨⟨rfl, rfl⟩, rfl⟩⟩

theorem witness_StoreWritesTheByte :
    (prog 0x0040 [0x0A, 0x40, 0x00]).Inv ∧
    At3 (prog 0x0040 [0x0A, 0x40, 0x00]) (0x08 + regIndex .C) 0x0040 :=
  ⟨Memory.wf_ofBytes (by decide), ⟨rfl, rfl⟩, rfl⟩

theorem witness_SetAndClearFlag :
    At1 (prog 0xFFFF [0x01]) 0x01 ∧ At1 (prog 0xFFFF [0x02]) 0x02 := ⟨⟨rfl, rfl⟩, ⟨rfl, rfl⟩⟩

theorem witness_AddAndSubtractWrap : Reg.A ≠ Reg.B := by decide

theorem witness_LogicalOperationsActBitByBit : Reg.D ≠ Reg.C := by decide

theorem witness_JumpSetsThePointer : At3 (prog 0x0200 [0x03, 0x00, 0x02]) 0x03 0x0200 :=
  ⟨⟨rfl, rfl⟩, rfl⟩

theorem witness_RelativeJumpGoesForward : At2 (prog 0xFFFE [0x0C, 0xFF]) 0x0C 0xFF :=
  ⟨⟨rfl, rfl⟩, rfl⟩

theorem witness_BranchConsumesTheFlag :
    At2 (withFlag (prog 0xFFFE [0x0E, 0x10])) 0x0E 0x10 ∧
    (withFlag (prog 0xFFFE [0x0E, 0x10])).flag = true ∧
    At2 (prog 0xFFFE [0x0E, 0x10]) 0x0E 0x10 ∧ (prog 0xFFFE [0x0E, 0x10]).flag = false :=
  ⟨⟨⟨rfl, rfl⟩, rfl⟩, rfl, ⟨⟨rfl, rfl⟩, rfl⟩, rfl⟩

theorem witness_WriteInstructionPointerStoresIt :
    (prog 0 [0x0D, 0xFF, 0xFF]).Inv ∧ At3 (prog 0 [0x0D, 0xFF, 0xFF]) 0x0D 0xFFFF :=
  ⟨Memory.wf_ofBytes (by decide), ⟨rfl, rfl⟩, rfl⟩

theorem witness_ComparisonFollowsItsParameters :
    (0x2001 : Addr).toNat = (0x01 : Byte).toNat + 256 * (0x20 : Byte).toNat := by decide

theorem witness_ObservedPresetDiffersAsTheTableSays :
    comparing.flag = false ∧
    (0x2000 : Addr).toNat = (0x00 : Byte).toNat + 256 * (0x20 : Byte).toNat := by decide

/-- One byte left in the sink, and no limit. -/
theorem witness_OutEmitsTheByte :
    At3 { prog 0 [0x0F, 0x50, 0x00] with sinkLimit := some 1 } 0x0F 0x0050 ∧
    (∃ n, { prog 0 [0x0F, 0x50, 0x00] with sinkLimit := some 1 }.sinkLimit = some n ∧
      { prog 0 [0x0F, 0x50, 0x00] with sinkLimit := some 1 }.out.length < n) ∧
    State.reset.sinkLimit = none :=
  ⟨⟨⟨rfl, rfl⟩, rfl⟩, ⟨1, rfl, by decide⟩, rfl⟩

theorem witness_RejectedOutputIsASinkFault :
    At3 rejecting 0x0F 0x0102 ∧ rejecting.sinkLimit = some 0 ∧ 0 ≤ rejecting.out.length :=
  ⟨⟨⟨rfl, rfl⟩, rfl⟩, rfl, by decide⟩

theorem witness_HaltNeedsAllOnesAndTheFlag : At1 halting 0xFF ∧ AllOnesAndFlag halting :=
  ⟨⟨rfl, rfl⟩, rfl, rfl, rfl, rfl, rfl⟩

/-- A Running machine at another instruction, a Halted one, and an OUT under each answer of the sink. -/
theorem witness_StepIsTheStepOfTheFiveComponents :
    let m := (prog 0 [0x0F, 0x00, 0x00]).toMachineState
    (prog 0 [0x01]).halted = false ∧ variantAt baRef (prog 0 [0x01]).toMachineState ≠ .out ∧
    halted.toMachineState.halted = true ∧ m.halted = false ∧ variantAt baRef m = .out ∧
    coreStep baRef true m = .next ({ m with ip := 3 }, some 0x0F) ∧
    coreStep baRef false m = .fault ({ m with ip := 3 }, 0x0F) :=
  ⟨rfl, by decide, rfl, rfl, rfl, rfl, rfl⟩

end Sys2Proof.Tests
end

section
/-! SUPPORT. The machine as an instance of the parametric one (spec/00_scope.md R10, R11). -/

namespace Sys2Proof.Machine

/-- A decoded instruction's meaning is its variant's at the reference parameters: the bit-field
decoder of R331 and the fourteen variants of R301 agree. -/
theorem exec_instrOf (b lo hi : Byte) (s : State) :
    exec (instrOf b lo hi) s = execVariant baRef (variantOf b) lo hi s := by
  rw [instrOf_eq_instr, exec_instr _ (variantOf_exposed b)]

/-- Settles O12, by cases on H: a Halted machine does nothing under either step; a Running one
completes the same meaning on the state past the same bytes, since the opcode map and the
instruction lengths of `baRef` are the decoder's. -/
theorem stepIsTheParametricStepAtReference : Obligations.StepIsTheParametricStepAtReference := by
  intro s
  cases h : s.halted with
  | true => rw [step_halted h, paramStep_halted _ h]
  | false =>
    have hmap : baRef.opcodeMap (s.memRead s.ip) = variantOf (s.memRead s.ip) :=
      opcodeMap_baRefWith _ _
    rw [step_running h, paramStep_running _ h, hmap, exec_instrOf, lengthOf, formatOf]

end Sys2Proof.Machine
end

section
/-! SUPPORT. What a completed meaning does to the state, said once over the fourteen variants of
R301, and what each component of the state therefore keeps (spec/10_state.md R105, R114, R121,
R131, R142). -/

namespace Sys2Proof.Machine

open Sys2Proof.Frame

/-- A completed OUT: the sink accepted, and its byte was emitted (R520). -/
theorem output_next {a : Addr} {s t : State} (h : output a s = .next t) :
    t = s.emit (s.memRead a) := by
  unfold output at h
  split at h
  · exact (Host.Outcome.next.inj h).symm
  · cases h

/-- What a completed meaning of variant `v` with operand bytes `lo`, `hi` can do to the state:
nothing, or the one operation that the rule of the variant names (a taken BR does two). -/
inductive Effect (v : Variant) (lo hi : Byte) (s : State) : State → Prop
  | nothing : Effect v lo hi s s
  | register (r : Reg) (x : Byte) (hv : regWritten v = some r) : Effect v lo hi s (s.setReg r x)
  | store (r : Reg) (hv : v = .st r) : Effect v lo hi s (store r (word16 hi lo) s)
  | storeIp (hv : v = .wip) : Effect v lo hi s (s.memWrite16 (word16 hi lo) s.ip)
  | setFlag (hv : v = .setf ∨ ∃ kind r, v = .cmp kind r) : Effect v lo hi s s.setFlag
  | clearFlag (hv : v = .clrf) : Effect v lo hi s s.clearFlag
  | jump (hv : v = .jmp) : Effect v lo hi s (s.jump (word16 hi lo))
  | relativeJump (hv : v = .jr) : Effect v lo hi s (s.advance (displacement lo))
  | branch (hv : v = .br) : Effect v lo hi s (s.clearFlag.advance (displacement lo))
  | emit (hv : v = .out) : Effect v lo hi s (s.emit (s.memRead (word16 hi lo)))
  | halt (hv : v = .halt) (hc : haltCondition s = true) : Effect v lo hi s s.halt

section
variable {P : Params} {v : Variant} {lo hi : Byte} {s t : State}

/-- Every completed meaning is one of the effects. -/
theorem execVariant_effect (h : execVariant P v lo hi s = .next t) : Effect v lo hi s t := by
  cases v with
  | out => obtain rfl := output_next h; exact .emit rfl
  | br =>
    cases h
    split
    · exact .branch rfl
    · exact .nothing
  | cmp kind r =>
    cases h
    obtain e | e := compareWith_cases P.cmpSel P.cmpRel kind r (word16 hi lo) s
    · exact e ▸ .setFlag (.inr ⟨kind, r, rfl⟩)
    · exact e.symm ▸ .nothing
  | halt =>
    cases h
    split
    · next hc => exact .halt rfl hc
    · exact .nothing
  | nop => cases h; exact .nothing
  | ld r => cases h; exact .register r _ rfl
  | alu op d r => cases h; exact .register d _ rfl
  | rot dir r => cases h; exact .register r _ rfl
  | st r => cases h; exact .store r rfl
  | wip => cases h; exact .storeIp rfl
  | setf => cases h; exact .setFlag (.inl rfl)
  | clrf => cases h; exact .clearFlag rfl
  | jmp => cases h; exact .jump rfl
  | jr => cases h; exact .relativeJump rfl

/-- A register the table of R105 does not list as written is kept. -/
theorem execVariant_reg (h : execVariant P v lo hi s = .next t) {q : Reg}
    (hq : regWritten v ≠ some q) : t.reg q = s.reg q := by
  cases execVariant_effect h with
  | register r x hv =>
    have hne : q ≠ r := fun e => hq (e ▸ hv)
    simp [hne]
  | _ => simp [store]

/-- A meaning that changes F is one of the table of R121. -/
theorem execVariant_flag (h : execVariant P v lo hi s = .next t) (hne : t.flag ≠ s.flag) :
    v = .setf ∨ v = .clrf ∨ v = .br ∨ ∃ kind r, v = .cmp kind r := by
  cases execVariant_effect h with
  | setFlag hv => exact hv.imp_right fun hc => .inr (.inr hc)
  | clearFlag hv => exact .inr (.inl hv)
  | branch hv => exact .inr (.inr (.inl hv))
  | _ => simp [store] at hne

/-- A meaning that changes the output is OUT, and appends the byte at its operand (R142, R520). -/
theorem execVariant_out (h : execVariant P v lo hi s = .next t) (hne : t.out ≠ s.out) :
    v = .out ∧ t.out = s.out ++ [s.memRead (word16 hi lo)] := by
  cases execVariant_effect h with
  | emit hv => exact ⟨hv, rfl⟩
  | _ => simp [store] at hne

/-- A meaning that changes H is HALT with its condition satisfied (R131, R522). -/
theorem execVariant_halted (h : execVariant P v lo hi s = .next t) (hne : t.halted ≠ s.halted) :
    v = .halt ∧ haltCondition s = true := by
  cases execVariant_effect h with
  | halt hv hc => exact ⟨hv, hc⟩
  | _ => simp [store] at hne

end

/-- How far a meaning that does not jump absolutely moves the pointer (R462, R466). -/
def displacementTaken (v : Variant) (lo : Byte) (flag : Bool) : Nat :=
  match v with
  | .jr => displacement lo
  | .br => if flag then displacement lo else 0
  | _ => 0

/-- Every meaning but JMP's moves the pointer by the displacement it takes (R114). -/
theorem execVariant_ip {P : Params} {v : Variant} {lo hi : Byte} {s t : State}
    (h : execVariant P v lo hi s = .next t) (hv : v ≠ .jmp) :
    t.ip = s.ip + BitVec.ofNat 16 (displacementTaken v lo s.flag) := by
  cases v with
  | out => obtain rfl := output_next h; simp [displacementTaken]
  | jmp => exact absurd rfl hv
  | jr => cases h; rfl
  | br =>
    cases h
    cases hf : s.flag <;> simp [displacementTaken]
  | cmp kind r =>
    cases h
    obtain e | e := compareWith_cases P.cmpSel P.cmpRel kind r (word16 hi lo) s <;>
      simp [e, displacementTaken]
  | halt =>
    cases h
    split <;> simp [displacementTaken]
  | _ =>
    cases h
    simp [displacementTaken, load, store, alu, rotate]

end Sys2Proof.Machine
end

section
/-! SUPPORT. What a step answers, through the meanings of the fourteen variants: the completed
step, the SinkFault and the observer (spec/30_encoding.md R310; spec/10_state.md R132, R143). -/

namespace Sys2Proof.Machine

open Sys2Proof.Frame

/-- An instruction's meaning, in every state, is its variant's at the reference parameters. -/
theorem exec_eq_execVariant (i : Instr) :
    ∃ lo hi, i = i.variant.instr lo hi ∧ ∀ s, exec i s = execVariant baRef i.variant lo hi s := by
  obtain ⟨hexp, lo, hi, hi'⟩ := Instr_eq_instr i
  exact ⟨lo, hi, hi', fun s => by rw [← exec_instr _ hexp, ← hi']⟩

/-- A Running machine's step, through the meaning of its opcode byte's variant (R310). -/
theorem step_running_variant {s : State} (h : s.halted = false) :
    step s = complete (s.memRead s.ip) (variantOf (s.memRead s.ip))
      (execVariant baRef (variantOf (s.memRead s.ip)) (s.memRead (s.ip + 1))
        (s.memRead (s.ip + 2)) (s.advance (lengthOf (s.memRead s.ip)))) := by
  rw [step_running h, exec_instrOf]

/-- A step that ends in SinkFault leaves the state past the instruction, otherwise as it was
(R521). -/
theorem step_sinkFault {s t : State} {b : Byte} (hs : step s = .fault (.sinkFault b t)) :
    t = s.advance (lengthOf (s.memRead s.ip)) := by
  cases h : s.halted with
  | true => rw [step_halted h] at hs; cases hs
  | false =>
    rw [step_running_variant h] at hs
    obtain ⟨u, hu⟩ | ⟨-, -, hu⟩ := execVariant_cases baRef (variantOf (s.memRead s.ip))
      (s.memRead (s.ip + 1)) (s.memRead (s.ip + 2)) (s.advance (lengthOf (s.memRead s.ip)))
    · rw [hu] at hs; cases hs
    · rw [hu] at hs; cases hs; rfl

/-- The 16-bit operand of a fetched instruction, as a number (R302). -/
theorem word16_operand_toNat (s : State) :
    (word16 (s.memRead (s.ip + 2)) (s.memRead (s.ip + 1))).toNat = operandAt s := by
  rw [word16_toNat, operandAt]
  omega

/-! ### The observer -/

theorem State.observe_of_observing {s : State} (h : s.observing = true) (b : Byte) (v : Variant) :
    s.observe b v = { s with trace := s.trace ++ [⟨s.regs, s.ip, s.flag, s.halted, b, v⟩] } :=
  if_pos h

theorem State.observe_of_not_observing {s : State} (h : s.observing = false) (b : Byte)
    (v : Variant) : s.observe b v = s :=
  if_neg (by simp [h])

/-- Forgetting the observer forgets the record it was given. -/
@[simp] theorem forget_observe (s : State) (b : Byte) (v : Variant) :
    forget (s.observe b v) = forget s := by
  unfold State.observe
  split <;> rfl

/-- Where no observer is attached a completed step is its meaning: nothing is recorded. -/
theorem complete_mapState_forget (b : Byte) (v : Variant) (x : Result) :
    complete b v (mapState forget x) = mapState forget x := by
  cases x with
  | next s => rfl
  | fault f => cases f; rfl
  | refused r => rfl

/-- Forgetting the observer after a step leaves what the meaning left. -/
theorem mapState_forget_complete (b : Byte) (v : Variant) (x : Result) :
    mapState forget (complete b v x) = mapState forget x := by
  cases x with
  | next s => exact congrArg Host.Outcome.next (forget_observe s b v)
  | fault f => rfl
  | refused r => rfl

/-- No meaning depends on the observer (R143). -/
theorem execVariant_forget (P : Params) (v : Variant) (lo hi : Byte) (s : State) :
    execVariant P v lo hi (forget s) = mapState forget (execVariant P v lo hi s) := by
  by_cases hv : v = .out
  · subst hv
    have hacc : (forget s).sinkAccepts = s.sinkAccepts := rfl
    simp only [execVariant, output, hacc]
    split <;> rfl
  · obtain ⟨m, h⟩ := execVariant_surroundings P v lo hi s.toMachineState hv
    calc execVariant P v lo hi (forget s)
        = .next { toMachineState := m, toSurroundings := (forget s).toSurroundings } := h _
      _ = mapState forget (execVariant P v lo hi s) := (congrArg (mapState forget) (h _)).symm

/-! ### The obligations on memory, the output, the halt flag and the observer -/

/-- Settles O13: a completed meaning keeps memory canonical, the observer does not touch it, and a
SinkFault carries the state past the instruction, whose memory is the old one. -/
theorem stepKeepsMemoryCanonical : Obligations.StepKeepsMemoryCanonical := by
  intro s hinv
  refine ⟨fun t hs => ?_, fun b t hs => ?_⟩
  · cases h : s.halted with
    | true => cases (step_halted h).symm.trans hs; exact hinv
    | false =>
      obtain ⟨u, hu, rfl⟩ := step_next h hs
      have hwf : u.mem.wf := execVariant_wf (s := s.advance _) hinv hu
      rwa [State.Inv, State.mem_observe]
  · rw [step_sinkFault hs]
    exact hinv

/-- Settles O25: a step that changes the output is not that of a Halted machine, so its meaning
changed it, which only OUT's does. -/
theorem outputGrowsOnlyByOut : Obligations.OutputGrowsOnlyByOut := by
  intro s t hs hne
  cases h : s.halted with
  | true => cases (step_halted h).symm.trans hs; exact absurd rfl hne
  | false =>
    obtain ⟨u, hu, rfl⟩ := step_next h hs
    obtain ⟨hv, hout⟩ := execVariant_out hu (by simpa using hne)
    exact ⟨hv, _, word16_operand_toNat s, by simpa using hout⟩

/-- A state that a machine's step leaves as it is stays so under any number of steps. -/
theorem run_of_step_self (M : Host.Core) {s : M.State} (h : M.step s = .next s) (n : Nat) :
    M.run n s = .next s := by
  induction n with
  | zero => rfl
  | succ n ih => rw [Host.Core.run, h]; exact ih

/-- Settles O27: a Halted machine's step answers the state itself. -/
theorem haltedMachineStaysAsItIs : Obligations.HaltedMachineStaysAsItIs :=
  fun n _ h => run_of_step_self Sys2Proof.core (step_halted h) n

/-- Settles O26: a Halted machine stays as it is (O27), and a meaning that changes H is HALT's with
its condition satisfied. -/
theorem haltFlagNeverFalls : Obligations.HaltFlagNeverFalls := by
  refine ⟨fun n s t hrun h => ?_, fun s t hs h ht => ?_⟩
  · cases (haltedMachineStaysAsItIs n s h).symm.trans hrun
    exact h
  · obtain ⟨u, hu, rfl⟩ := step_next h hs
    rw [State.halted_observe] at ht
    obtain ⟨hv, hc⟩ := execVariant_halted hu (by simp [h, ht])
    exact ⟨hv, by simpa [haltCondition_iff, AllOnesAndFlag] using hc⟩

/-- Settles O31: no meaning depends on the observer, and what the observer is given is only its
own. -/
theorem observerHasNoEffect : Obligations.ObserverHasNoEffect := by
  intro s
  cases h : s.halted with
  | true =>
    have hf : (forget s).halted = true := h
    rw [step_halted h, step_halted hf]
    rfl
  | false =>
    have hf : (forget s).halted = false := h
    rw [step_running_variant h, step_running_variant hf, mapState_forget_complete,
      ← complete_mapState_forget, ← execVariant_forget]
    rfl

/-- Settles O32: no meaning touches the observer, so the trace after a completed step is the old one
with the record `observe` appends. -/
theorem observerGetsTheStateAfterTheStep : Obligations.ObserverGetsTheStateAfterTheStep := by
  refine ⟨fun s t hs h hobs => ?_, fun s t hs hno => ?_⟩
  · obtain ⟨u, hu, rfl⟩ := step_next h hs
    obtain ⟨-, hobs', htrace⟩ := execVariant_ports hu
    simp [State.observe_of_observing (hobs'.trans hobs), htrace]
  · cases h : s.halted with
    | true => cases (step_halted h).symm.trans hs; rfl
    | false =>
      obtain ⟨u, hu, rfl⟩ := step_next h hs
      obtain ⟨-, hobs', htrace⟩ := execVariant_ports hu
      have hobs : s.observing = false := by simpa [h] using hno
      rw [State.observe_of_not_observing (hobs'.trans hobs), htrace, State.trace_advance]

end Sys2Proof.Machine
end

section
/-! SUPPORT. The flag, the registers and the pointer (spec/10_state.md R102 to R124), and the
state after reset (R150). -/

namespace Sys2Proof.Machine

open Sys2Proof.Frame

/-! ### Primitives -/

/-- Settles O1: each is one write of the pointer, and the sum of two addresses is taken modulo
65536. -/
theorem advanceAndJumpSetThePointer : Obligations.AdvanceAndJumpSetThePointer := by
  have hadv (s : State) (n : Nat) : (s.advance n).ip.toNat = (s.ip.toNat + n) % 65536 := by
    simp [BitVec.toNat_add]
  refine ⟨fun s n => ⟨hadv s n, ?_⟩, fun s a => ⟨rfl, ?_⟩, fun s h => ?_⟩
  · simp [OnlyIp, RegsKept, MemKept, FlagsKept, PortsKept]
  · simp [OnlyIp, RegsKept, MemKept, FlagsKept, PortsKept]
  · rw [hadv, h]

/-- A register write changes nothing but the register (R22). -/
theorem onlyReg_setReg (s : State) (r : Reg) (v : Byte) : OnlyReg r s (s.setReg r v) := by
  have hregs : RegsKeptBut r s (s.setReg r v) := fun q hq => by simp [hq]
  exact ⟨hregs, by simp [MemKept, FlagsKept, PortsKept]⟩

/-- Settles O2: the register file's law at the written register, and the frame of a register
write. -/
theorem everyRegisterHoldsWhatIsWritten : Obligations.EveryRegisterHoldsWhatIsWritten :=
  fun s r v => ⟨by simp, onlyReg_setReg s r v⟩

/-- Settles O14: the empty list is canonical and reads as 0x00 everywhere. -/
theorem resetIsAllZero : Obligations.ResetIsAllZero :=
  ⟨fun r => by cases r <;> rfl, rfl, fun _ => rfl, rfl, rfl, rfl, rfl, rfl, rfl, Memory.wf_nil⟩

/-! ### The flag -/

/-- A comparison that holds leaves F true (R480). -/
theorem compare_flag_of_holds {kind : CmpKind} {r : Reg} {a : Addr} {s : State}
    (h : presetRel cmpPreset kind (s.reg (presetSel cmpPreset kind r)) (s.memRead a) = true) :
    (compare kind r a s).flag = true :=
  (compareWith_flag _ _ kind r a s).2 (.inr h)

/-- A comparison that fails leaves the state as it was (R480). -/
theorem compare_of_fails {kind : CmpKind} {r : Reg} {a : Addr} {s : State}
    (h : presetRel cmpPreset kind (s.reg (presetSel cmpPreset kind r)) (s.memRead a) = false) :
    compare kind r a s = s :=
  if_neg (by simp [h])

/-- After BR F is false, whether it was taken or not (R466). -/
theorem execBr_flag {d : Byte} {s t : State} (h : execBr d s = .next t) : t.flag = false := by
  cases h
  split
  · rfl
  · next hf => simpa using hf

/-- Settles O18: the four lines of R121 by their meanings, and the last clause by the inversion of
the fourteen variants. -/
theorem flagChangesOnlyAsTheTableSays : Obligations.FlagChangesOnlyAsTheTableSays := by
  refine ⟨fun s t h => ?_, fun s t h => ?_, fun kind r a s t h => ?_, fun d s t h => execBr_flag h,
    fun i s t h hne => ?_⟩
  · cases h; rfl
  · cases h; rfl
  · rw [exec_cmp] at h
    cases h
    exact ⟨compare_flag_of_holds, fun hf => by rw [compare_of_fails hf]⟩
  · obtain ⟨lo, hi, hi', hexec⟩ := exec_eq_execVariant i
    rw [hexec] at h
    rw [hi']
    obtain hv | hv | hv | ⟨kind, r, hv⟩ := execVariant_flag h hne
    · exact .inl (by rw [hv]; rfl)
    · exact .inr (.inl (by rw [hv]; rfl))
    · exact .inr (.inr (.inl ⟨lo, by rw [hv]; rfl⟩))
    · exact .inr (.inr (.inr ⟨kind, r, word16 hi lo, by rw [hv]; rfl⟩))

/-- No list of comparisons clears F (R124, R480). -/
theorem execAll_cmp_flag (cs : List (CmpKind × Reg × Addr)) {s t : State} (hf : s.flag = true)
    (h : execAll (cs.map fun c => Instr.cmp c.1 c.2.1 c.2.2) s = .next t) : t.flag = true := by
  induction cs generalizing s with
  | nil => cases h; exact hf
  | cons c cs ih =>
    have hc : (compare c.1 c.2.1 c.2.2 s).flag = true := (compareWith_flag _ _ _ _ _ s).2 (.inl hf)
    rw [List.map_cons, execAll, exec_cmp] at h
    exact ih hc h

/-- A meaning that makes F false is CLRF's or BR's: SETF and a comparison only ever make it true
(R124). -/
theorem execVariant_flag_falls {P : Params} {v : Variant} {lo hi : Byte} {s t : State}
    (h : execVariant P v lo hi s = .next t) (hf : s.flag = true) (ht : t.flag = false) :
    v = .clrf ∨ v = .br := by
  cases execVariant_effect h with
  | clearFlag hv => exact .inl hv
  | branch hv => exact .inr hv
  | _ => simp [store, hf] at ht

/-- Settles O19: only CLRF's and BR's meanings make F false, each leaves it false, and no list of
comparisons clears it. -/
theorem flagIsAOneShotTrigger : Obligations.FlagIsAOneShotTrigger := by
  refine ⟨fun s t hs hf ht => ?_, fun s t h hs hv => ?_, fun cs s t hf => execAll_cmp_flag cs hf⟩
  · cases h : s.halted with
    | true => cases (step_halted h).symm.trans hs; rw [hf] at ht; cases ht
    | false =>
      obtain ⟨u, hu, rfl⟩ := step_next h hs
      rw [State.flag_observe] at ht
      exact execVariant_flag_falls hu hf ht
  · obtain ⟨u, hu, rfl⟩ := step_next h hs
    rw [State.flag_observe]
    obtain hv | hv := hv
    · rw [hv] at hu; cases hu; rfl
    · rw [hv] at hu; exact execBr_flag hu

/-! ### The registers -/

/-- Settles O21: every meaning keeps the registers the table does not list as written. -/
theorem registersChangeOnlyAsTheTableSays : Obligations.RegistersChangeOnlyAsTheTableSays := by
  intro i s t h q hq
  obtain ⟨lo, hi, -, hexec⟩ := exec_eq_execVariant i
  rw [hexec] at h
  exact execVariant_reg h hq

/-- A register written twice holds the second value. -/
theorem State.setReg_setReg_same (s : State) (q : Reg) (x y : Byte) :
    (s.setReg q x).setReg q y = s.setReg q y := by
  cases q <;> rfl

/-- Writes of two registers commute. -/
theorem State.setReg_setReg_of_ne (s : State) {q r : Reg} (h : q ≠ r) (x y : Byte) :
    (s.setReg q x).setReg r y = (s.setReg r y).setReg q x := by
  revert h
  cases q <;> cases r <;> simp [State.setReg]

/-! A write of register `q` commutes with every operation on another component of the state. -/

@[simp] theorem State.advance_setReg (s : State) (q : Reg) (x : Byte) (n : Nat) :
    (s.setReg q x).advance n = (s.advance n).setReg q x := by cases q <;> rfl
@[simp] theorem State.jump_setReg (s : State) (q : Reg) (x : Byte) (a : Addr) :
    (s.setReg q x).jump a = (s.jump a).setReg q x := by cases q <;> rfl
@[simp] theorem State.memWrite_setReg (s : State) (q : Reg) (x : Byte) (a : Addr) (y : Byte) :
    (s.setReg q x).memWrite a y = (s.memWrite a y).setReg q x := by cases q <;> rfl
@[simp] theorem State.memWrite16_setReg (s : State) (q : Reg) (x : Byte) (a w : Addr) :
    (s.setReg q x).memWrite16 a w = (s.memWrite16 a w).setReg q x := by cases q <;> rfl
@[simp] theorem State.setFlag_setReg (s : State) (q : Reg) (x : Byte) :
    (s.setReg q x).setFlag = s.setFlag.setReg q x := by cases q <;> rfl
@[simp] theorem State.clearFlag_setReg (s : State) (q : Reg) (x : Byte) :
    (s.setReg q x).clearFlag = s.clearFlag.setReg q x := by cases q <;> rfl
@[simp] theorem State.emit_setReg (s : State) (q : Reg) (x : Byte) (b : Byte) :
    (s.setReg q x).emit b = (s.emit b).setReg q x := by cases q <;> rfl

/-- What a register that is not read held is lost where the meaning writes it (R105). -/
theorem execVariant_setReg_of_written (P : Params) {v : Variant} (lo hi : Byte) (s : State)
    {q : Reg} (x : Byte) (hr : regRead v q = false) (hw : regWritten v = some q) :
    execVariant P v lo hi (s.setReg q x) = execVariant P v lo hi s := by
  cases v with
  | ld r =>
    obtain rfl := Option.some.inj hw
    simp [execVariant, load, State.setReg_setReg_same]
  | alu op d r => obtain rfl := Option.some.inj hw; simp [regRead] at hr
  | rot dir r => obtain rfl := Option.some.inj hw; simp [regRead] at hr
  | _ => cases hw

/-- A register that a meaning neither reads nor writes keeps its own value and changes nothing else
(R105). -/
theorem execVariant_setReg_of_unused {v : Variant} (lo hi : Byte) (s : State) {q : Reg} (x : Byte)
    (hr : regRead v q = false) (hw : regWritten v ≠ some q) :
    execVariant baRef v lo hi (s.setReg q x)
      = mapState (fun t => t.setReg q x) (execVariant baRef v lo hi s) := by
  cases v with
  | ld r =>
    have hne : q ≠ r := fun e => hw (congrArg some e.symm)
    simp [execVariant, mapState, load, State.setReg_setReg_of_ne s hne]
  | st r =>
    have hne : q ≠ r := by simpa [regRead] using hr
    simp [execVariant, mapState, store, hne.symm]
  | alu op d r =>
    obtain ⟨hd, hr⟩ : q ≠ d ∧ q ≠ r := by simpa [regRead] using hr
    simp [execVariant, mapState, alu, hd.symm, hr.symm, State.setReg_setReg_of_ne s hd]
  | rot dir r =>
    have hne : q ≠ r := by simpa [regRead] using hr
    simp [execVariant, mapState, rotate, hne.symm, State.setReg_setReg_of_ne s hne]
  | cmp kind r =>
    have hsel : q ≠ presetSel cmpPreset kind r := by simpa [regRead] using hr
    have hne : baRef.cmpSel kind r ≠ q := hsel.symm
    simp only [execVariant, mapState, compareWith, State.reg_setReg, if_neg hne,
      State.memRead_setReg, State.setFlag_setReg]
    split <;> rfl
  | br =>
    simp only [execVariant, mapState, State.flag_setReg, State.clearFlag_setReg,
      State.advance_setReg]
    split <;> rfl
  | out =>
    simp only [execVariant, output, State.sinkAccepts_setReg, State.memRead_setReg,
      State.emit_setReg]
    split <;> rfl
  | halt => cases hr
  | _ => simp [execVariant, mapState]

/-- Settles O22: an instruction is its variant's meaning, and there a register that is not read is
lost or kept as the table says whether it is written. -/
theorem unreadRegistersHaveNoInfluence : Obligations.UnreadRegistersHaveNoInfluence := by
  intro i s q x hr
  obtain ⟨lo, hi, -, hexec⟩ := exec_eq_execVariant i
  rw [hexec, hexec]
  exact ⟨execVariant_setReg_of_written baRef lo hi s x hr,
    execVariant_setReg_of_unused lo hi s x hr⟩

/-! ### The pointer -/

/-- A Running step of another variant than JMP leaves the pointer past the instruction, by the
displacement it takes (R111, R114). -/
theorem step_ip_toNat {s t : State} (h : s.halted = false) (hs : step s = .next t)
    (hv : variantOf (s.memRead s.ip) ≠ .jmp) :
    t.ip.toNat = (s.ip.toNat + lengthOf (s.memRead s.ip)
      + displacementTaken (variantOf (s.memRead s.ip)) (s.memRead (s.ip + 1)) s.flag) % 65536 := by
  obtain ⟨u, hu, rfl⟩ := step_next h hs
  rw [State.ip_observe, execVariant_ip hu hv]
  simp [BitVec.toNat_add]

/-- Settles O23: JMP sets the pointer to its operand; at every other variant the line of the table
is the instruction's length and the displacement taken. -/
theorem pointerAfterEachInstruction : Obligations.PointerAfterEachInstruction := by
  intro s t h hs
  by_cases hv : variantOf (s.memRead s.ip) = .jmp
  · obtain ⟨u, hu, rfl⟩ := step_next h hs
    rw [hv] at hu ⊢
    cases hu
    rw [State.ip_observe]
    exact word16_operand_toNat s
  · have hip := step_ip_toNat h hs hv
    rw [lengthOf, formatOf] at hip
    cases hvar : variantOf (s.memRead s.ip) with
    | jmp => exact absurd hvar hv
    | br =>
      rw [hvar] at hip
      cases hf : s.flag <;> rw [hf] at hip <;> exact hip
    | _ => rw [hvar] at hip; exact hip

end Sys2Proof.Machine
end

section
/-! SUPPORT. The step over the five components (spec/10_state.md R101): what a meaning answers, as
an outcome of the CORE that its surroundings receive. -/

namespace Sys2Proof.Machine

open Sys2Proof.Frame

/-- A completed outcome that emits nothing leaves the surroundings as they are. -/
theorem Surroundings.receive_none (e : Surroundings) (m : MachineState) :
    e.receive (.next (m, none)) = .next { toMachineState := m, toSurroundings := e } := by
  simp [Surroundings.receive]

/-- What an answering sink without an observer received is the outcome of the CORE again. -/
theorem coreResult_complete_receive (accepts : Bool) (b : Byte) (v : Variant) (x : CoreResult) :
    coreResult (complete b v ((Surroundings.answering accepts).receive x)) = x := by
  cases x with
  | next y =>
    obtain ⟨m, b⟩ := y
    cases b <;> rfl
  | fault y => rfl
  | refused r => rfl

/-- A meaning is an outcome `x` of the CORE, given the sink's answer, that the surroundings
receive. Only OUT's depends on the answer. -/
theorem execVariant_receive (P : Params) (v : Variant) (lo hi : Byte) (m : MachineState) :
    ∃ x : Bool → CoreResult,
      (∀ e, execVariant P v lo hi { toMachineState := m, toSurroundings := e }
        = e.receive (x (State.sinkAccepts { toMachineState := m, toSurroundings := e }))) ∧
      (v = .out → ∃ m' b, x true = .next (m', some b) ∧ x false = .fault (m', b)) ∧
      (v ≠ .out → ∃ m', ∀ accepts, x accepts = .next (m', none)) := by
  by_cases hv : v = .out
  · subst hv
    let b := m.mem.read (word16 hi lo).toNat
    refine ⟨fun accepts => if accepts then .next (m, some b) else .fault (m, b), fun e => ?_,
      fun _ => ⟨m, b, rfl, rfl⟩, fun hne => absurd rfl hne⟩
    simp only [execVariant, output]
    split <;> rfl
  · obtain ⟨m', h⟩ := execVariant_surroundings P v lo hi m hv
    exact ⟨fun _ => .next (m', none), fun e => (h e).trans (e.receive_none m').symm,
      fun he => absurd he hv, fun _ => ⟨m', fun _ => rfl⟩⟩

/-- A Running machine's step, under any parameters, is the step of its five components, which the
surroundings receive, and the observer's record; only an OUT's depends on the sink's answer. -/
theorem coreStep_running (P : Params) {m : MachineState} (h : m.halted = false) :
    (∀ e, paramStep P { toMachineState := m, toSurroundings := e }
      = complete (m.mem.read m.ip.toNat) (variantAt P m)
          (e.receive (coreStep P
            (State.sinkAccepts { toMachineState := m, toSurroundings := e }) m))) ∧
    (variantAt P m = .out →
      ∃ m' b, coreStep P true m = .next (m', some b) ∧ coreStep P false m = .fault (m', b)) ∧
    (variantAt P m ≠ .out → ∃ m', ∀ accepts, coreStep P accepts m = .next (m', none)) := by
  let past : MachineState :=
    { m with ip := m.ip + BitVec.ofNat 16 (1 + (variantAt P m).format.operands) }
  obtain ⟨x, hx, hout, hother⟩ := execVariant_receive P (variantAt P m)
    (m.mem.read (m.ip + 1).toNat) (m.mem.read (m.ip + 2).toNat) past
  have hstep (e : Surroundings) : paramStep P { toMachineState := m, toSurroundings := e }
      = complete (m.mem.read m.ip.toNat) (variantAt P m)
          (e.receive (x (State.sinkAccepts { toMachineState := m, toSurroundings := e }))) :=
    (paramStep_running P h).trans (congrArg _ (hx e))
  have hcore (accepts : Bool) : coreStep P accepts m = x accepts := by
    rw [coreStep, hstep, Surroundings.sinkAccepts_answering, coreResult_complete_receive]
  simp only [hcore]
  exact ⟨hstep, hout, hother⟩

/-- The step of a Halted machine's five components (R132). -/
theorem coreStep_halted (P : Params) (accepts : Bool) {m : MachineState} (h : m.halted = true) :
    coreStep P accepts m = .next (m, none) := by
  rw [coreStep, paramStep_halted P h]
  rfl

/-- Settles O54, by cases on H: a Running step is the CORE's, received; a Halted one does nothing.
-/
theorem stepIsTheStepOfTheFiveComponents : Obligations.StepIsTheStepOfTheFiveComponents := by
  refine ⟨fun P s h => ?_, coreStep_halted, fun P m h => ?_, fun P m hv => ?_⟩
  · obtain ⟨hstep, -, -⟩ := coreStep_running P h
    exact hstep s.toSurroundings
  · obtain ⟨-, hout, -⟩ := coreStep_running P h
    exact hout
  · cases h : m.halted with
    | true => exact ⟨m, fun accepts => coreStep_halted P accepts h⟩
    | false =>
      obtain ⟨-, -, hother⟩ := coreStep_running P h
      exact hother hv

end Sys2Proof.Machine
end

section
/-! SUPPORT. The memory accesses (spec/20_memory.md R202, R210, R211, R223, R233): what a 2-byte
access reads and writes, and which meanings change a byte. -/

namespace Sys2Proof

/-- A 16-bit value is its high byte times 256 plus its low byte (R212). -/
theorem hiByte_loByte_toNat (w : Addr) : (hiByte w).toNat * 256 + (loByte w).toNat = w.toNat := by
  rw [← word16_toNat, word16_hiByte_loByte]

theorem loByte_toNat (w : Addr) : (loByte w).toNat = w.toNat % 256 := by
  have := hiByte_loByte_toNat w
  omega

theorem hiByte_toNat (w : Addr) : (hiByte w).toNat = w.toNat / 256 := by
  have := hiByte_loByte_toNat w
  omega

end Sys2Proof

namespace Sys2Proof.Machine

open Sys2Proof.Frame

/-! ### Reads and writes -/

/-- The address after another, which wraps (R210, R211). -/
theorem Addr_succ_toNat (a : Addr) : (a + 1).toNat = (a.toNat + 1) % 65536 :=
  BitVec.toNat_add a 1

/-- A 2-byte read as a number (R210). -/
theorem State.memRead16_toNat (s : State) (a : Addr) :
    (s.memRead16 a).toNat = (s.memRead (a + 1)).toNat * 256 + (s.memRead a).toNat :=
  word16_toNat _ _

/-- Settles O3: the bytes of a 2-byte read, joined; the address after 0xFFFF is 0x0000. -/
theorem twoByteReadIsLittleEndianAndWraps : Obligations.TwoByteReadIsLittleEndianAndWraps := by
  refine ⟨fun _ _ => rfl, fun s a b hb => ?_, fun s => s.memRead16_toNat 0xFFFF⟩
  have hsucc : b = a + 1 := BitVec.eq_of_toNat_eq (hb.trans (Addr_succ_toNat a).symm)
  rw [hsucc, State.memRead16_toNat]

/-- Byte writes at two addresses of a canonical memory commute. -/
theorem State.memWrite_comm {s : State} (hs : s.mem.wf) {a b : Addr} (hne : a ≠ b) (x y : Byte) :
    (s.memWrite a x).memWrite b y = (s.memWrite b y).memWrite a x := by
  have hkey : a.toNat ≠ b.toNat := fun e => hne (BitVec.eq_of_toNat_eq e)
  have hmem : (s.mem.write a.toNat x).write b.toNat y = (s.mem.write b.toNat y).write a.toNat x := by
    have ha := Memory.wf_write x hs a.isLt
    have hb := Memory.wf_write y hs b.isLt
    refine Memory.ext (Memory.wf_write y ha b.isLt) (Memory.wf_write x hb a.isLt) fun k => ?_
    rw [Memory.read_write ha, Memory.read_write hs, Memory.read_write hb, Memory.read_write hs]
    by_cases hk : k = b.toNat
    · simp [hk, hkey.symm]
    · simp [hk]
  simp only [State.memWrite, hmem]

/-! ### The meanings that change memory -/

/-- A meaning that changes a byte of memory is ST's at its operand, or WIP's at its operand or the
address after it (R202, R223). -/
theorem execVariant_memRead {P : Params} {v : Variant} {lo hi : Byte} {s t : State}
    (hs : s.mem.wf) (h : execVariant P v lo hi s = .next t) {b : Addr}
    (hne : t.memRead b ≠ s.memRead b) :
    (∃ r, v = .st r ∧ b = word16 hi lo) ∨
      (v = .wip ∧ (b = word16 hi lo ∨ b = word16 hi lo + 1)) := by
  cases execVariant_effect h with
  | store r hv =>
    rw [store_memRead hs] at hne
    exact .inl ⟨r, hv, by_contra fun hb => hne (if_neg hb)⟩
  | storeIp hv =>
    rw [State.memRead_memWrite16 hs] at hne
    refine .inr ⟨hv, by_contra fun hb => ?_⟩
    obtain ⟨hlo, hhi⟩ := not_or.1 hb
    exact hne (by rw [if_neg hhi, if_neg hlo])
  | _ => simp at hne

/-- Any instruction but WIP leaves every byte as it was, but for the byte at the address of an ST
(R211). -/
theorem exec_memRead_of_not_wip {i : Instr} {s t : State} (hs : s.mem.wf) (h : exec i s = .next t)
    (hwip : ∀ a, i ≠ .wip a) {b : Addr} (hst : ∀ r a, i = Instr.st r a → b ≠ a) :
    t.memRead b = s.memRead b := by
  obtain ⟨lo, hi, hi', hexec⟩ := exec_eq_execVariant i
  rw [hexec] at h
  by_contra hne
  obtain ⟨r, hv, hb⟩ | ⟨hv, -⟩ := execVariant_memRead hs h hne
  · exact hst r (word16 hi lo) (by rw [hi', hv]; rfl) hb
  · exact hwip (word16 hi lo) (by rw [hi', hv]; rfl)

/-- Settles O4: a read after either write, byte writes at different addresses commute, and the
inversion of the fourteen variants. -/
theorem writesChangeExactlyTheirBytes : Obligations.WritesChangeExactlyTheirBytes := by
  refine ⟨fun s a b v hs => State.memRead_memWrite hs a b v,
    fun s a b w hs => ⟨fun hb => ?_, fun hb => ?_, fun hlo hhi => ?_⟩,
    fun a => (Addr_succ_ne a).symm, fun s a w hs => State.memWrite_comm hs (Addr_succ_ne a) _ _,
    fun _ _ => rfl, fun i s t hs h hwip b hst => exec_memRead_of_not_wip hs h hwip hst⟩
  · rw [State.memRead_memWrite16 hs, hb, if_neg (Addr_succ_ne a).symm, if_pos rfl, loByte_toNat]
  · rw [State.memRead_memWrite16 hs, if_pos hb, hiByte_toNat]
  · rw [State.memRead_memWrite16 hs, if_neg hhi, if_neg hlo]

/-! ### Whole steps -/

/-- Settles O24: a step that changes a byte is not that of a Halted machine, so its meaning changed
it, which only ST's and WIP's do. -/
theorem memoryChangesOnlyWhereStored : Obligations.MemoryChangesOnlyWhereStored := by
  intro s t hinv hs a hne
  cases h : s.halted with
  | true => cases (step_halted h).symm.trans hs; exact absurd rfl hne
  | false =>
    obtain ⟨u, hu, rfl⟩ := step_next h hs
    have hop := word16_operand_toNat s
    rw [State.memRead_observe] at hne
    obtain ⟨r, hv, rfl⟩ | ⟨hv, rfl | rfl⟩ := execVariant_memRead (s := s.advance _) hinv hu hne
    · exact ⟨rfl, .inl ⟨r, hv, hop⟩⟩
    · exact ⟨rfl, .inr ⟨hv, .inl hop⟩⟩
    · exact ⟨rfl, .inr ⟨hv, .inr (by rw [Addr_succ_toNat, hop])⟩⟩

/-- The opcode byte of `ST r` (R330). -/
theorem variantOf_st (r : Reg) : variantOf (0x08 + regIndex r) = .st r := by
  cases r <;> rfl

/-- The step of a Running machine at an ST stores past the instruction (R310, R402). -/
theorem step_st {s : State} {r : Reg} {a : Addr} (hat : At3 s (0x08 + regIndex r) a) :
    step s = .next ((store r a (s.advance 3)).observe (0x08 + regIndex r) (.st r)) := by
  obtain ⟨⟨hrun, hop⟩, haddr⟩ := hat
  have ha : word16 (s.memRead (s.ip + 2)) (s.memRead (s.ip + 1)) = a :=
    BitVec.eq_of_toNat_eq ((word16_operand_toNat s).trans haddr)
  rw [step_running_variant hrun, hop, lengthOf, formatOf, variantOf_st, ← ha]
  rfl

/-- Settles O33: the step is the store of the register at the pointer after it, and the next fetch
reads its opcode there. -/
theorem storeIsTheNextOpcode : Obligations.StoreIsTheNextOpcode := by
  intro r s hinv hat
  refine ⟨_, step_st hat, ?_⟩
  have hread : (store r (s.ip + 3) (s.advance 3)).memRead (s.ip + 3) = s.reg r := by
    rw [store_memRead (s := s.advance 3) hinv, if_pos rfl, State.reg_advance]
  simp only [fetch_eq, instrOf_variant, State.memRead_observe, State.ip_observe]
  exact ⟨hread, congrArg variantOf hread⟩

end Sys2Proof.Machine
end

section
/-! SUPPORT. The two directions of the encoding (spec/30_encoding.md R300 to R303, R330, R331): an
instruction's bytes are the opcode byte of its variant and the operand bytes of its format, and the
decoder reads exactly those. -/

namespace Sys2Proof

/-- The operand bytes of a format, in address order, low byte first (R302). -/
def Format.operandBytes (f : Format) (lo hi : Byte) : List Byte :=
  match f with
  | .f0 => []
  | .f8 => [lo]
  | .f16 => [lo, hi]

@[simp] theorem Format.length_operandBytes (f : Format) (lo hi : Byte) :
    (f.operandBytes lo hi).length = f.operands := by
  cases f <;> rfl

/-- The opcode byte the encoder writes for a variant (R330). -/
def Variant.opcode (v : Variant) : Byte := (encode (v.instr 0 0)).headD 0

/-! ### The encoder -/

/-- The encoder writes the opcode byte of the variant and the operand bytes of its format. -/
theorem encode_instr (v : Variant) (lo hi : Byte) :
    encode (v.instr lo hi) = v.opcode :: v.format.operandBytes lo hi := by
  have h16 : [loByte (word16 hi lo), hiByte (word16 hi lo)] = [lo, hi] := by simp
  cases v with
  | alu op d r => cases op <;> cases d <;> cases r <;> rfl
  | ld r => cases r <;> exact congrArg _ h16
  | st r => cases r <;> exact congrArg _ h16
  | cmp kind r => cases kind <;> cases r <;> exact congrArg _ h16
  | rot dir r => cases dir <;> cases r <;> rfl
  | jmp => exact congrArg _ h16
  | wip => exact congrArg _ h16
  | out => exact congrArg _ h16
  | _ => rfl

/-- An exposed variant's opcode byte decodes to it (R320 item 3). -/
theorem variantOf_opcode {v : Variant} (h : v.exposed Machine.baRefPairs = true) :
    variantOf v.opcode = v :=
  Machine.variantOf_head v h

/-- An explicitly assigned byte is the opcode byte of the variant it decodes to (R330). -/
theorem opcode_variantOf {b : Byte} (h : (Machine.baRefAssign b).isSome = true) :
    (variantOf b).opcode = b :=
  Machine.forall_byte (p := fun b => (Machine.baRefAssign b).isSome = true →
    (variantOf b).opcode = b) (by decide +kernel) b h

/-- The law `Laws.EncodedLength` for every instruction at once (R302, R303). -/
theorem encode_length (i : Instr) : (encode i).length = 1 + i.variant.format.operands := by
  obtain ⟨-, lo, hi, hi'⟩ := Machine.Instr_eq_instr i
  calc (encode i).length = (encode (i.variant.instr lo hi)).length := by rw [← hi']
    _ = 1 + i.variant.format.operands := by
      rw [encode_instr, List.length_cons, Format.length_operandBytes, Nat.add_comm]

/-! ### The decoder -/

/-- What the decoder answers: the instruction of the opcode byte and of the operand bytes that its
format takes off the list (R303, R311). -/
theorem decode_cons_eq_ok {b : Byte} {bytes rest : List Byte} {i : Instr} :
    decode (b :: bytes) = .ok (i, rest) ↔
      ∃ lo hi, bytes = (formatOf b).operandBytes lo hi ++ rest ∧ i = instrOf b lo hi := by
  constructor
  · intro h
    simp only [decode] at h
    split at h
    · next hf => cases h; exact ⟨0, 0, by rw [hf]; rfl, rfl⟩
    · next lo rest hf => cases h; exact ⟨lo, 0, by rw [hf]; rfl, rfl⟩
    · next lo hi rest hf => cases h; exact ⟨lo, hi, by rw [hf]; rfl, rfl⟩
    · cases h
  · rintro ⟨lo, hi, rfl, rfl⟩
    cases hf : formatOf b with
    | f0 => simp [decode, hf, Format.operandBytes, instrOf_f0 hf lo hi]
    | f8 => simp [decode, hf, Format.operandBytes, instrOf_f8 hf lo hi]
    | f16 => simp [decode, hf, Format.operandBytes]

/-- A list long enough for a format begins with its operand bytes. -/
theorem Format.exists_operandBytes {f : Format} {bytes : List Byte}
    (h : f.operands ≤ bytes.length) :
    ∃ lo hi, bytes = f.operandBytes lo hi ++ bytes.drop f.operands := by
  match f, bytes, h with
  | .f0, _, _ => exact ⟨0, 0, rfl⟩
  | .f8, lo :: _, _ => exact ⟨lo, 0, rfl⟩
  | .f16, lo :: hi :: _, _ => exact ⟨lo, hi, rfl⟩

/-- Decoding fails, by name, on a list that ends before the operand bytes (R300). -/
theorem decode_cons_of_short {b : Byte} {bytes : List Byte}
    (h : bytes.length < (formatOf b).operands) :
    decode (b :: bytes) = .error (.missingOperand b) := by
  cases hd : decode (b :: bytes) with
  | ok x =>
    obtain ⟨lo, hi, hbytes, -⟩ := decode_cons_eq_ok.1 hd
    have hlen := congrArg List.length hbytes
    rw [List.length_append, Format.length_operandBytes] at hlen
    omega
  | error e =>
    simp only [decode] at hd
    split at hd <;> cases hd
    rfl

/-- An instruction is one to three bytes long (R303). -/
theorem lengthOf_bounds (b : Byte) : 1 ≤ lengthOf b ∧ lengthOf b ≤ 3 := by
  unfold lengthOf
  cases formatOf b <;> decide

/-! ### The obligations on the two directions -/

/-- Settles O7: an instruction is its variant with two operand bytes, the encoder writes that
variant's opcode byte, and the opcode byte decodes to the variant. -/
theorem decodeOfEncodeIsTheInstruction : Obligations.DecodeOfEncodeIsTheInstruction := by
  intro i rest
  obtain ⟨hexp, lo, hi, hi'⟩ := Machine.Instr_eq_instr i
  have hvar : variantOf i.variant.opcode = i.variant := variantOf_opcode hexp
  have hbytes : encode i = i.variant.opcode :: i.variant.format.operandBytes lo hi := by
    rw [← encode_instr, ← hi']
  rw [hbytes, List.cons_append, decode_cons_eq_ok]
  exact ⟨lo, hi, by rw [formatOf, hvar], by rw [instrOf_eq_instr, hvar, ← hi']⟩

/-- Settles O8: the decoder took the operand bytes of the byte's format, and an assigned byte is
the one the encoder writes for its variant. -/
theorem encodeOfDecodeIsTheBytes : Obligations.EncodeOfDecodeIsTheBytes := by
  intro b bytes rest i hb hdec
  obtain ⟨lo, hi, rfl, rfl⟩ := decode_cons_eq_ok.1 hdec
  rw [instrOf_eq_instr, encode_instr, opcode_variantOf hb, List.cons_append, formatOf]

/-- Settles O9: a list that is long enough begins with the operand bytes of the opcode byte's
format, and one that is not is rejected. -/
theorem everyOpcodeByteDecodes : Obligations.EveryOpcodeByteDecodes := by
  refine ⟨lengthOf_bounds, fun b bytes hlen => ?_, fun b bytes hlen => ?_⟩
  · rw [lengthOf] at hlen
    have hlen' : (formatOf b).operands ≤ bytes.length := by omega
    obtain ⟨lo, hi, hbytes⟩ := Format.exists_operandBytes hlen'
    refine ⟨instrOf b lo hi, decode_cons_eq_ok.2 ⟨lo, hi, ?_, rfl⟩⟩
    rwa [lengthOf, Nat.add_comm, List.drop_succ_cons]
  · rw [lengthOf] at hlen
    exact decode_cons_of_short (by omega)

/-! ### The byte table -/

/-- Settles O6, by running the decoder on each string. -/
theorem writtenOutWordsDecode : Obligations.WrittenOutWordsDecode :=
  ⟨rfl, rfl, rfl, rfl, rfl, rfl, rfl, rfl, rfl⟩

/-- The byte of an ALU row decodes to its operation, and to NOP on equal registers (R330, R332). -/
theorem variantOf_alu (op : AluOp) (d r : Reg) :
    variantOf (Frame.aluBase op + 4 * Frame.regIndex d + Frame.regIndex r)
      = if d = r then .nop else .alu op d r := by
  cases op <;> cases d <;> cases r <;> rfl

/-- The bytes between the rotates and ADD, and those between OR and HALT, are NOP (R330). -/
theorem variantOf_gap (b : Byte)
    (h : 0x24 ≤ b.toNat ∧ b.toNat ≤ 0x2F ∨ 0x80 ≤ b.toNat ∧ b.toNat ≤ 0xFE) :
    variantOf b = .nop :=
  Machine.forall_byte (p := fun b => 0x24 ≤ b.toNat ∧ b.toNat ≤ 0x2F ∨
    0x80 ≤ b.toNat ∧ b.toNat ≤ 0xFE → variantOf b = .nop) (by decide +kernel) b h

/-- Settles O10: the rows of the table one by one, by register and by operation. -/
theorem opcodeBytesAreThoseOfTheTable : Obligations.OpcodeBytesAreThoseOfTheTable := by
  refine ⟨⟨rfl, rfl, rfl, rfl, rfl, rfl, rfl, rfl, rfl⟩, fun r => ?_, variantOf_alu,
    fun b hlo hhi => variantOf_gap b (.inl ⟨hlo, hhi⟩),
    fun b hlo hhi => variantOf_gap b (.inr ⟨hlo, hhi⟩)⟩
  cases r <;> exact ⟨rfl, rfl, rfl, rfl, rfl, rfl, rfl⟩

end Sys2Proof
end

section
/-! SUPPORT. Fetching and the step (spec/30_encoding.md R310, R311, R340): the bytes at the pointer
are the ones decoded and run, and no byte traps. -/

namespace Sys2Proof.Machine

open Sys2Proof.Frame

/-! ### Fetching -/

/-- A 16-bit fetch is a 2-byte read at the pointer, which moves by 2 (R311). -/
theorem fetch16_eq (s : State) : fetch16 s = (s.memRead16 s.ip, s.advance 2) :=
  congrArg (Prod.mk _) (s.advance_advance 1 1)

/-- Settles O5: a 16-bit fetch is a 2-byte read, and the address after 0xFFFF is 0x0000. -/
theorem fetchSixteenTakesLowByteFirst : Obligations.FetchSixteenTakesLowByteFirst := by
  have hval (s : State) : (fetch16 s).1.toNat
      = (s.memRead s.ip).toNat + 256 * (s.memRead (s.ip + 1)).toNat := by
    rw [fetch16_eq, State.memRead16_toNat]
    omega
  refine ⟨fun s => ⟨by rw [fetch16_eq], hval s⟩, fun s hip => ?_⟩
  rw [hval, hip]
  rfl

/-! ### The decoded instruction and the step -/

/-- Settles O11: three bytes always decode, and what the decoder leaves of them says how many the
step passes. -/
theorem stepRunsTheDecodedInstruction : Obligations.StepRunsTheDecodedInstruction := by
  refine ⟨fun s h => step_halted h, fun s _ => ⟨_, _, decode_three _ _ _⟩,
    fun s i rest h hdec => ?_, fun s => ?_⟩
  · cases (decode_three _ _ _).symm.trans hdec
    have hlen : 3 - ([s.memRead s.ip, s.memRead (s.ip + 1), s.memRead (s.ip + 2)].drop
        (lengthOf (s.memRead s.ip))).length = lengthOf (s.memRead s.ip) := by
      obtain ⟨-, hle⟩ := lengthOf_bounds (s.memRead s.ip)
      rw [List.length_drop]
      exact Nat.sub_sub_self hle
    rw [hlen, instrOf_variant, step_running h]
  · unfold State.status
    cases s.halted <;> decide

/-- The bytes of a placed word, read where the next step fetches. -/
theorem memRead_withFetchWord {s : State} (hs : s.Inv) (nbits w : Nat) :
    (s.withFetchWord nbits w).memRead s.ip = BitVec.ofNat 8 (w % 2 ^ nbits) ∧
    (s.withFetchWord nbits w).memRead (s.ip + 1) = BitVec.ofNat 8 (w % 2 ^ nbits / 256) ∧
    (s.withFetchWord nbits w).memRead (s.ip + 2) = BitVec.ofNat 8 (w % 2 ^ nbits / 65536) := by
  have h0 (v : Byte) := State.wf_memWrite hs s.ip v
  have h1 (v v' : Byte) := State.wf_memWrite (h0 v) (s.ip + 1) v'
  have hread (b : Addr) : (s.withFetchWord nbits w).memRead b
      = if b = s.ip + 2 then BitVec.ofNat 8 (w % 2 ^ nbits / 65536)
        else if b = s.ip + 1 then BitVec.ofNat 8 (w % 2 ^ nbits / 256)
        else if b = s.ip then BitVec.ofNat 8 (w % 2 ^ nbits) else s.memRead b := by
    rw [← State.memRead_memWrite hs, ← State.memRead_memWrite (h0 _),
      ← State.memRead_memWrite (h1 _ _)]
    rfl
  refine ⟨?_, ?_, ?_⟩ <;> rw [hread] <;> simp

/-- A table word names the instruction of its three bytes. -/
theorem decodeTableWord_eq (nbits w : Nat) :
    decodeTableWord nbits w = some (instrOf (BitVec.ofNat 8 (w % 2 ^ nbits))
      (BitVec.ofNat 8 (w % 2 ^ nbits / 256)) (BitVec.ofNat 8 (w % 2 ^ nbits / 65536))) := by
  simp only [decodeTableWord, decode_three]

/-- Settles O17: the placed bytes are what a Running step decodes, and an instruction is as long as
its encoding. -/
theorem placedWordIsTheNextInstruction : Obligations.PlacedWordIsTheNextInstruction := by
  intro s nbits w hs
  obtain ⟨h0, h1, h2⟩ := memRead_withFetchWord hs nbits w
  have hrun : (s.withFetchWord nbits w).halted = false := rfl
  have hip : (s.withFetchWord nbits w).ip = s.ip := rfl
  refine ⟨_, _, _, decodeTableWord_eq nbits w, rfl, rfl, ?_⟩
  rw [encode_length, step_running hrun, hip, h0, h1, h2, instrOf_variant, lengthOf, formatOf]

/-! ### No byte traps -/

/-- Where the sink accepts, every meaning completes (R340, R603). -/
theorem execVariant_of_sinkAccepts (P : Params) (v : Variant) (lo hi : Byte) {s : State}
    (h : s.sinkAccepts = true) : ∃ t, execVariant P v lo hi s = .next t := by
  obtain hnext | ⟨-, hrej, -⟩ := execVariant_cases P v lo hi s
  · exact hnext
  · rw [h] at hrej
    cases hrej

/-- Settles O29: the meaning of any variant completes where the sink accepts, and a byte that is not
assigned has NOP's, which leaves the state past the opcode byte. -/
theorem noByteTrapsAndUnassignedBytesAreNop : Obligations.NoByteTrapsAndUnassignedBytesAreNop := by
  refine ⟨fun P s hacc => ?_, fun P s h hnone => ?_⟩
  · cases h : s.halted with
    | true => exact ⟨s, paramStep_halted P h⟩
    | false =>
      have hpast (n : Nat) : (s.advance n).sinkAccepts = true := hacc
      obtain ⟨t, ht⟩ := execVariant_of_sinkAccepts P _ _ _ (hpast _)
      exact ⟨_, (paramStep_running P h).trans (complete_eq_next.2 ⟨t, ht, rfl⟩)⟩
  · have hnop : P.opcodeMap (s.memRead s.ip) = .nop := by rw [Params.opcodeMap, hnone]; rfl
    rw [paramStep_running P h, hnop]
    rfl

end Sys2Proof.Machine
end

section
/-! SUPPORT. No-op, load and store (spec/40_nop_load_store.md): the step at each one's bytes, and
what an instruction's frame gives for the whole step. -/

namespace Sys2Proof.Machine

open Sys2Proof.Frame

/-! ### The step at given bytes -/

/-- The step of a Running machine at opcode byte `b` (R310). -/
theorem step_at1 {s : State} {b : Byte} (hat : At1 s b) :
    step s = complete b (variantOf b) (execVariant baRef (variantOf b) (s.memRead (s.ip + 1))
      (s.memRead (s.ip + 2)) (s.advance (lengthOf b))) := by
  obtain ⟨hrun, rfl⟩ := hat
  exact step_running_variant hrun

/-- The two operand bytes of `At3`, joined. -/
theorem word16_of_at3 {s : State} {b : Byte} {a : Addr} (hat : At3 s b a) :
    word16 (s.memRead (s.ip + 2)) (s.memRead (s.ip + 1)) = a := by
  obtain ⟨-, haddr⟩ := hat
  exact BitVec.eq_of_toNat_eq ((word16_operand_toNat s).trans haddr)

/-- The opcode byte of `LD r` (R330). -/
theorem variantOf_ld (r : Reg) : variantOf (0x04 + regIndex r) = .ld r := by
  cases r <;> rfl

/-- The step of a Running machine at an LD loads past the instruction (R310, R401). -/
theorem step_ld {s : State} {r : Reg} {a : Addr} (hat : At3 s (0x04 + regIndex r) a) :
    step s = .next ((load r a (s.advance 3)).observe (0x04 + regIndex r) (.ld r)) := by
  rw [step_at1 hat.1, lengthOf, formatOf, variantOf_ld, ← word16_of_at3 hat]
  rfl

/-- The bytes that mean NOP: 0x00 and every unassigned one (R340). -/
theorem variantOf_eq_nop {b : Byte} (h : b = 0x00 ∨ baRefAssign b = none) :
    variantOf b = .nop := by
  obtain rfl | hnone := h
  · rfl
  · rw [← opcodeMap_baRefWith .intended, Params.opcodeMap]
    exact congrArg (Option.getD · .nop) hnone

/-- The step of a Running machine at a NOP moves the pointer past the byte (R310, R400). -/
theorem step_nop {s : State} {b : Byte} (hat : At1 s b) (hb : variantOf b = .nop) :
    step s = .next ((s.advance 1).observe b .nop) := by
  rw [step_at1 hat, lengthOf, formatOf, hb]
  rfl

/-! ### Frames -/

/-- The whole step of an instruction that changes one register only: the pointer past it, and
everything but that register, the pointer and the observer's record as before. -/
theorem onlyReg_step {s u : State} {r : Reg} {n : Nat} (h : OnlyReg r (s.advance n) u) (b : Byte)
    (v : Variant) :
    (u.observe b v).ip = s.ip + BitVec.ofNat 16 n ∧ RegsKeptBut r s (u.observe b v) ∧
      MemKept s (u.observe b v) ∧ FlagsKept s (u.observe b v) ∧ SinkKept s (u.observe b v) := by
  obtain ⟨hregs, hip, hmem, hflags, hout, hlimit, hobs, -⟩ := h
  exact ⟨by simpa using hip, fun q hq => by simpa using hregs q hq, fun a => by simpa using hmem a,
    by simpa [FlagsKept] using hflags, by simp [SinkKept, hout, hlimit, hobs]⟩

/-- A load changes nothing but its register (R401). -/
theorem onlyReg_load (r : Reg) (a : Addr) (s : State) : OnlyReg r s (load r a s) :=
  onlyReg_setReg s r (s.memRead a)

/-- After a load its register holds the byte (R401). -/
theorem load_reg (r : Reg) (a : Addr) (s : State) : (load r a s).reg r = s.memRead a := by
  simp [load]

/-- After a store its address reads the register (R402). -/
theorem store_memRead_same {s : State} (hs : s.Inv) (r : Reg) (a : Addr) :
    (store r a s).memRead a = s.reg r := by
  rw [store_memRead hs, if_pos rfl]

/-- A store leaves every other byte (R402). -/
theorem store_memRead_of_ne {s : State} (hs : s.Inv) (r : Reg) {a b : Addr} (h : b ≠ a) :
    (store r a s).memRead b = s.memRead b := by
  rw [store_memRead hs, if_neg h]

/-- A store changes nothing outside memory (R402). -/
theorem store_keeps (r : Reg) (a : Addr) (s : State) :
    RegsKept s (store r a s) ∧ (store r a s).ip = s.ip ∧ FlagsKept s (store r a s) ∧
      PortsKept s (store r a s) := by
  simp [store, RegsKept, FlagsKept, PortsKept]

/-! ### The obligations on no-op, load and store -/

/-- Settles O36: a load is one register write of the byte it reads, and the step is the load past
the instruction. -/
theorem loadCopiesTheByte : Obligations.LoadCopiesTheByte := by
  refine ⟨fun r a s => ⟨_, exec_ld r a s, load_reg r a s, onlyReg_load r a s⟩,
    fun r a s hat => ⟨_, step_ld hat, ?_, onlyReg_step (onlyReg_load r a (s.advance 3)) _ _⟩⟩
  rw [State.reg_observe, load_reg, State.memRead_advance]

/-- Settles O37: a store is one byte write, which canonical memory reads back at its address and
nowhere else, and the step is the store past the instruction. -/
theorem storeWritesTheByte : Obligations.StoreWritesTheByte := by
  refine ⟨fun r a s hs => ⟨_, exec_st r a s, store_memRead_same hs r a,
      fun b hb => store_memRead_of_ne hs r hb, store_keeps r a s⟩,
    fun r a s hs hat => ⟨_, step_st hat, ?_, fun b hb => ?_, ?_⟩⟩
  · rw [State.memRead_observe, store_memRead_same (s := s.advance 3) hs, State.reg_advance]
  · rw [State.memRead_observe, store_memRead_of_ne (s := s.advance 3) hs r hb,
      State.memRead_advance]
  · simp [store, RegsKept, FlagsKept, SinkKept]

/-- Settles O35: the meaning of NOP is the state it is given, and 0x00 and the unassigned bytes
decode to it. -/
theorem nopOnlyMovesThePointer : Obligations.NopOnlyMovesThePointer := by
  refine ⟨fun _ => rfl, fun s b hat hb => ⟨_, step_nop hat (variantOf_eq_nop hb), ?_⟩⟩
  simp [RegsKept, MemKept, FlagsKept, SinkKept]

end Sys2Proof.Machine
end

section
/-! SUPPORT. The flag instructions (spec/41_flag.md): the step at each one's byte, and what a change
of the condition flag alone gives for the whole step. -/

namespace Sys2Proof.Machine

open Sys2Proof.Frame

/-! ### The step at the two bytes -/

/-- The step of a Running machine at SETF makes F true past the byte (R310, R420). -/
theorem step_setf {s : State} (hat : At1 s 0x01) :
    step s = .next ((s.advance 1).setFlag.observe 0x01 .setf) :=
  step_at1 hat

/-- The step of a Running machine at CLRF makes F false past the byte (R310, R421). -/
theorem step_clrf {s : State} (hat : At1 s 0x02) :
    step s = .next ((s.advance 1).clearFlag.observe 0x02 .clrf) :=
  step_at1 hat

/-! ### Frames -/

/-- Making F true changes nothing else (R420). -/
theorem onlyFlag_setFlag (s : State) : OnlyFlag s s.setFlag := by
  simp [OnlyFlag, RegsKept, MemKept, PortsKept]

/-- Making F false changes nothing else (R421). -/
theorem onlyFlag_clearFlag (s : State) : OnlyFlag s s.clearFlag := by
  simp [OnlyFlag, RegsKept, MemKept, PortsKept]

/-- The whole step, from a Running machine, of an instruction that changes the condition flag only:
F as the instruction leaves it, the pointer past it, and everything else but the observer's record as
before. -/
theorem onlyFlag_step {s u : State} {n : Nat} (hrun : s.halted = false)
    (h : OnlyFlag (s.advance n) u) (b : Byte) (v : Variant) :
    (u.observe b v).flag = u.flag ∧ (u.observe b v).ip = s.ip + BitVec.ofNat 16 n ∧
      RegsKept s (u.observe b v) ∧ MemKept s (u.observe b v) ∧
      (u.observe b v).halted = false ∧ SinkKept s (u.observe b v) := by
  obtain ⟨hregs, hip, hmem, hhalted, hout, hlimit, hobs, -⟩ := h
  exact ⟨State.flag_observe u b v, by simpa using hip, fun q => by simpa using hregs q,
    fun a => by simpa using hmem a, by simpa [hrun] using hhalted,
    by simp [SinkKept, hout, hlimit, hobs]⟩

/-! ### The obligation on the flag instructions -/

/-- Settles O38: each meaning is one write of F, and the step is that write past the opcode byte of a
Running machine. -/
theorem setAndClearFlag : Obligations.SetAndClearFlag :=
  ⟨fun s => ⟨s.setFlag, rfl, State.flag_setFlag s, onlyFlag_setFlag s⟩,
    fun s => ⟨s.clearFlag, rfl, State.flag_clearFlag s, onlyFlag_clearFlag s⟩,
    fun s hat => ⟨_, step_setf hat, onlyFlag_step hat.1 (onlyFlag_setFlag (s.advance 1)) _ _⟩,
    fun s hat => ⟨_, step_clrf hat, onlyFlag_step hat.1 (onlyFlag_clearFlag (s.advance 1)) _ _⟩⟩

end Sys2Proof.Machine
end

section
/-! SUPPORT. The register-pair ALU operations (spec/42_alu.md): what the destination holds after one,
and that nothing else changes. -/

namespace Sys2Proof.Machine

open Sys2Proof.Frame

/-! ### The operations on two bytes -/

/-- ADD is the sum modulo 256 (R441). -/
theorem toNat_aluResult_add (x y : Byte) :
    (aluResult .add x y).toNat = (x.toNat + y.toNat) % 256 :=
  BitVec.toNat_add x y

/-- SUB is the difference modulo 256, the destination minus the source (R442): the borrow that the
word's subtraction adds is a whole 256. -/
theorem toNat_aluResult_sub (x y : Byte) :
    ((aluResult .sub x y).toNat : Int) = (x.toNat - y.toNat : Int) % 256 := by
  have hword : (aluResult .sub x y).toNat = (256 - y.toNat + x.toNat) % 256 := BitVec.toNat_sub x y
  have hy : y.toNat < 256 := y.isLt
  omega

/-- AND acts bit by bit (R443). -/
theorem getLsbD_aluResult_and (x y : Byte) (k : Nat) :
    (aluResult .and x y).getLsbD k = (x.getLsbD k && y.getLsbD k) :=
  BitVec.getLsbD_and

/-- XOR acts bit by bit (R444). -/
theorem getLsbD_aluResult_xor (x y : Byte) (k : Nat) :
    (aluResult .xor x y).getLsbD k = (x.getLsbD k != y.getLsbD k) :=
  BitVec.getLsbD_xor

/-- OR acts bit by bit (R445). -/
theorem getLsbD_aluResult_or (x y : Byte) (k : Nat) :
    (aluResult .or x y).getLsbD k = (x.getLsbD k || y.getLsbD k) :=
  BitVec.getLsbD_or

/-! ### The operations on two registers -/

/-- After an ALU operation its destination holds the result on the two registers before it, whether
or not they are the same register (R440). -/
@[simp] theorem alu_reg (op : AluOp) (d r : Reg) (s : State) :
    (alu op d r s).reg d = aluResult op (s.reg d) (s.reg r) := by
  simp [alu]

/-- An ALU operation changes nothing but its destination, F included (R440, R122). -/
theorem onlyReg_alu (op : AluOp) (d r : Reg) (s : State) : OnlyReg d s (alu op d r s) :=
  onlyReg_setReg s d (aluResult op (s.reg d) (s.reg r))

/-! ### The obligations on the ALU -/

/-- Settles O39: on different registers the instruction is its ALU operation, whose result is the
sum or the difference modulo 256. -/
theorem addAndSubtractWrap : Obligations.AddAndSubtractWrap := by
  refine fun d r s h => ⟨⟨_, exec_alu h .add s, ?_, onlyReg_alu .add d r s⟩,
    ⟨_, exec_alu h .sub s, ?_, onlyReg_alu .sub d r s⟩⟩
  · rw [alu_reg, toNat_aluResult_add]
  · rw [alu_reg, toNat_aluResult_sub]

/-- Settles O40: on different registers the instruction is its ALU operation, whose result is read
bit by bit. -/
theorem logicalOperationsActBitByBit : Obligations.LogicalOperationsActBitByBit := by
  refine fun d r s h => ⟨⟨_, exec_alu h .and s, onlyReg_alu .and d r s, fun k _ => ?_⟩,
    ⟨_, exec_alu h .xor s, onlyReg_alu .xor d r s, fun k _ => ?_⟩,
    ⟨_, exec_alu h .or s, onlyReg_alu .or d r s, fun k _ => ?_⟩⟩
  · rw [alu_reg, getLsbD_aluResult_and]
  · rw [alu_reg, getLsbD_aluResult_xor]
  · rw [alu_reg, getLsbD_aluResult_or]

/-- Settles O41: the meaning of an ALU variant does not look at the parameters, and its result on a
byte and itself is, per operation, the double or the library's self law. -/
theorem aluIsDefinedOnEqualRegisters : Obligations.AluIsDefinedOnEqualRegisters := by
  refine fun P op d lo hi s => ⟨alu op d d s, rfl, onlyReg_alu op d d s, ?_⟩
  rw [alu_reg]
  cases op with
  | add => rw [toNat_aluResult_add, Nat.two_mul]
  | sub => exact congrArg BitVec.toNat (BitVec.sub_self (s.reg d))
  | and => exact congrArg BitVec.toNat BitVec.and_self
  | xor => exact congrArg BitVec.toNat BitVec.xor_self
  | or => exact congrArg BitVec.toNat BitVec.or_self

end Sys2Proof.Machine
end

section
/-! SUPPORT. Control transfer (spec/43_control.md): the step at each one's bytes, what a change of
the pointer alone gives for the whole step, and what WIP's 2-byte write leaves in memory. -/

namespace Sys2Proof.Machine

open Sys2Proof.Frame

/-! ### The step at given bytes -/

/-- The step of a Running machine at a JMP jumps to the operand (R310, R460). -/
theorem step_jmp {s : State} {a : Addr} (hat : At3 s 0x03 a) :
    step s = .next (((s.advance 3).jump a).observe 0x03 .jmp) := by
  rw [step_at1 hat.1, ← word16_of_at3 hat]
  rfl

/-- The step of a Running machine at a WIP stores the pointer past the instruction (R310, R464). -/
theorem step_wip {s : State} {a : Addr} (hat : At3 s 0x0D a) :
    step s = .next (((s.advance 3).memWrite16 a (s.advance 3).ip).observe 0x0D .wip) := by
  rw [step_at1 hat.1, ← word16_of_at3 hat]
  rfl

/-- The step of a Running machine at a JR moves the pointer on from past the instruction (R310,
R462). -/
theorem step_jr {s : State} {d : Byte} (hat : At2 s 0x0C d) :
    step s = .next (((s.advance 2).advance (displacement d)).observe 0x0C .jr) := by
  obtain ⟨hop, rfl⟩ := hat
  exact step_at1 hop

/-- The step of a Running machine at a BR is its meaning past the instruction (R310, R466). -/
theorem step_br {s : State} {d : Byte} (hat : At2 s 0x0E d) :
    step s = complete 0x0E .br (execBr d (s.advance 2)) := by
  obtain ⟨hop, rfl⟩ := hat
  exact step_at1 hop

/-! ### The pointer -/

/-- The pointer after an advance, as a number (R112). -/
theorem State.ip_advance_toNat (s : State) (n : Nat) :
    (s.advance n).ip.toNat = (s.ip.toNat + n) % 65536 := by
  obtain ⟨hadv, -, -⟩ := advanceAndJumpSetThePointer
  exact (hadv s n).1

/-- The pointer after two advances, as a number: the displacement is taken from past the instruction
(R463). -/
theorem State.ip_advance_advance_toNat (s : State) (m n : Nat) :
    ((s.advance m).advance n).ip.toNat = (s.ip.toNat + m + n) % 65536 := by
  rw [State.advance_advance, State.ip_advance_toNat, Nat.add_assoc]

/-- An advance changes nothing but the pointer (R112). -/
theorem onlyIp_advance (s : State) (n : Nat) : OnlyIp s (s.advance n) := by
  obtain ⟨hadv, -, -⟩ := advanceAndJumpSetThePointer
  exact (hadv s n).2

/-- A jump changes nothing but the pointer (R112). -/
theorem onlyIp_jump (s : State) (a : Addr) : OnlyIp s (s.jump a) := by
  obtain ⟨-, hjump, -⟩ := advanceAndJumpSetThePointer
  exact (hjump s a).2

/-- The whole step of an instruction that changes the pointer only: everything but the pointer and
the observer's record as before. -/
theorem onlyIp_step {s u : State} {n : Nat} (h : OnlyIp (s.advance n) u) (b : Byte) (v : Variant) :
    RegsKept s (u.observe b v) ∧ MemKept s (u.observe b v) ∧ FlagsKept s (u.observe b v) ∧
      SinkKept s (u.observe b v) := by
  obtain ⟨hregs, hmem, hflags, hout, hlimit, hobs, -⟩ := h
  exact ⟨fun q => by simpa using hregs q, fun a => by simpa using hmem a,
    by simpa [FlagsKept] using hflags, by simp [SinkKept, hout, hlimit, hobs]⟩

/-! ### The branch -/

/-- BR with F true clears F and advances by the displacement (R466). -/
theorem execBr_of_flag {s : State} (h : s.flag = true) (d : Byte) :
    execBr d s = .next (s.clearFlag.advance (displacement d)) :=
  congrArg Host.Outcome.next (if_pos h)

/-- BR with F false does nothing (R466). -/
theorem execBr_of_not_flag {s : State} (h : s.flag = false) (d : Byte) :
    execBr d s = .next s :=
  congrArg Host.Outcome.next (if_neg (by simp [h]))

/-- What the two have in common: after BR F is false, the pointer has moved by the displacement if F
was true, and nothing else has changed (R466). -/
theorem execBr_effect (d : Byte) (s : State) :
    ∃ u, execBr d s = .next u ∧ OnlyIp s.clearFlag u ∧
      u.ip.toNat = (s.ip.toNat + if s.flag then d.toNat else 0) % 65536 := by
  cases hf : s.flag with
  | true => exact ⟨_, execBr_of_flag hf d, onlyIp_advance _ _, State.ip_advance_toNat _ _⟩
  | false =>
    refine ⟨s, execBr_of_not_flag hf d, ?_, (Nat.mod_eq_of_lt s.ip.isLt).symm⟩
    simp [OnlyIp, RegsKept, MemKept, FlagsKept, PortsKept, hf]

/-! ### WIP's write -/

/-- A 2-byte write to canonical memory leaves the low byte at its address, the high byte at the
next, and every other byte as it was (R211, R212). -/
theorem State.memWrite16_bytes {s : State} (hs : s.Inv) (a w : Addr) :
    ((s.memWrite16 a w).memRead a).toNat = w.toNat % 256 ∧
      ((s.memWrite16 a w).memRead (a + 1)).toNat = w.toNat / 256 ∧
      ∀ b, b ≠ a → b ≠ a + 1 → (s.memWrite16 a w).memRead b = s.memRead b := by
  obtain ⟨-, hwrite, -⟩ := writesChangeExactlyTheirBytes
  obtain ⟨hlo, -, -⟩ := hwrite s a a w hs
  obtain ⟨-, hhi, -⟩ := hwrite s a (a + 1) w hs
  refine ⟨hlo rfl, hhi rfl, fun b => ?_⟩
  obtain ⟨-, -, hother⟩ := hwrite s a b w hs
  exact hother

/-! ### The obligations on control transfer -/

/-- Settles O45: WIP is one 2-byte write of the pointer past its operand, which canonical memory
reads back at its two addresses and nowhere else. -/
theorem writeInstructionPointerStoresIt : Obligations.WriteInstructionPointerStoresIt := by
  refine ⟨fun a s hs => ⟨_, rfl, ?_⟩, fun a s hs hat => ⟨_, step_wip hat, by simp, ?_⟩⟩
  · obtain ⟨hlo, hhi, hother⟩ := State.memWrite16_bytes hs a s.ip
    exact ⟨hlo, hhi, hother, by simp [RegsKept, FlagsKept, PortsKept]⟩
  · obtain ⟨hlo, hhi, hother⟩ := State.memWrite16_bytes (s := s.advance 3) hs a (s.advance 3).ip
    simp only [State.memRead_observe, State.ip_observe, State.ip_memWrite16]
    exact ⟨hlo, hhi, hother, by simp [RegsKept, FlagsKept, SinkKept]⟩

/-- Settles O42: JMP is one write of the pointer, and the step is that write past the
instruction. -/
theorem jumpSetsThePointer : Obligations.JumpSetsThePointer :=
  ⟨fun a s => ⟨s.jump a, rfl, rfl, onlyIp_jump s a⟩,
    fun a s hat => ⟨_, step_jmp hat, State.ip_observe _ _ _,
      onlyIp_step (onlyIp_jump (s.advance 3) a) _ _⟩⟩

/-- Settles O43: JR is one advance of the pointer, and the step is that advance past the
instruction. -/
theorem relativeJumpGoesForward : Obligations.RelativeJumpGoesForward := by
  refine ⟨fun d s => ⟨_, rfl, s.ip_advance_toNat d.toNat, onlyIp_advance s d.toNat⟩,
    fun d s hat => ⟨_, step_jr hat, ?_, onlyIp_step (onlyIp_advance (s.advance 2) _) _ _⟩⟩
  rw [State.ip_observe, State.ip_advance_advance_toNat, displacement]

/-- Settles O44: with F false BR answers its state; otherwise, and for the step past the
instruction, what its two forms have in common. -/
theorem branchConsumesTheFlag : Obligations.BranchConsumesTheFlag := by
  refine ⟨fun d s hf => ?_, fun d s hf => execBr_of_not_flag hf d, fun d s hat => ?_⟩
  · obtain ⟨u, hu, ⟨hregs, hmem, ⟨hflag, hhalted⟩, hports⟩, hip⟩ := execBr_effect d s
    rw [if_pos hf] at hip
    exact ⟨u, hu, hflag, hip, fun q => by simpa using hregs q, hmem, hhalted, hports⟩
  · have hstep := step_br hat
    obtain ⟨⟨hrun, -⟩, -⟩ := hat
    obtain ⟨u, hu, honly, hip⟩ := execBr_effect d (s.advance 2)
    obtain ⟨hregs, hmem, ⟨hflag, hhalted⟩, hsink⟩ := onlyIp_step (s := s.clearFlag) honly 0x0E .br
    refine ⟨u.observe 0x0E .br, by rw [hstep, hu]; rfl, hflag, ?_,
      fun q => by simpa using hregs q, hmem, hhalted.trans hrun, hsink⟩
    rw [State.ip_observe, hip, State.flag_advance, State.ip_advance_toNat, Nat.mod_add_mod]

end Sys2Proof.Machine
end

section
/-! SUPPORT. Comparisons against memory (spec/44_compare.md): the two presets' tables as equations,
one comparison under any parameters, and a sequence of them. -/

namespace Sys2Proof.Machine

open Sys2Proof.Frame

/-! ### The presets (R481) -/

/-- Both presets test less-than, unsigned (R481, R483). -/
theorem presetRel_lt_iff (p : CmpPreset) (v m : Byte) :
    presetRel p .lt v m = true ↔ v.toNat < m.toNat := by
  cases p <;> exact decide_eq_true_iff

/-- Both presets test greater-than, unsigned (R481, R484). -/
theorem presetRel_gt_iff (p : CmpPreset) (v m : Byte) :
    presetRel p .gt v m = true ↔ m.toNat < v.toNat := by
  cases p <;> exact decide_eq_true_iff

/-- INTENDED's equal-to relation is equality (R481, R485). -/
theorem presetRel_intended_eq_iff (v m : Byte) :
    presetRel .intended .eq v m = true ↔ v.toNat = m.toNat :=
  decide_eq_true_iff.trans BitVec.toNat_inj.symm

/-- OBSERVED's equal-to relation is greater-than (R481). -/
theorem presetRel_observed_eq_iff (v m : Byte) :
    presetRel .observed .eq v m = true ↔ m.toNat < v.toNat :=
  decide_eq_true_iff

/-- OBSERVED's order comparisons of B and C select A (R481). -/
theorem presetSel_observed_of_order {kind : CmpKind} (hk : kind = .lt ∨ kind = .gt) (r : Reg) :
    presetSel .observed kind r = if r = .B ∨ r = .C then .A else r := by
  obtain rfl | rfl := hk <;> cases r <;> rfl

/-- OBSERVED's equal-to comparisons select the named register (R481). -/
theorem presetSel_observed_eq (r : Reg) : presetSel .observed .eq r = r := by
  cases r <;> rfl

/-! ### One comparison (R480) -/

/-- Changing nothing keeps everything but the condition flag, as a comparison that fails does. -/
theorem onlyFlag_refl (s : State) : OnlyFlag s s := by
  simp [OnlyFlag, RegsKept, MemKept, PortsKept]

/-- A comparison under any parameters changes nothing but the condition flag (R480). -/
theorem onlyFlag_compareWith (sel : CmpKind → Reg → Reg) (rel : CmpKind → Byte → Byte → Bool)
    (kind : CmpKind) (r : Reg) (a : Addr) (s : State) :
    OnlyFlag s (compareWith sel rel kind r a s) := by
  obtain e | e := compareWith_cases sel rel kind r a s <;> rw [e]
  · exact onlyFlag_setFlag s
  · exact onlyFlag_refl s

/-- From F false, F is the comparison's relation (R480). -/
theorem compareWith_flag_of_not_flag {s : State} (hf : s.flag = false)
    (sel : CmpKind → Reg → Reg) (rel : CmpKind → Byte → Byte → Bool) (kind : CmpKind) (r : Reg)
    (a : Addr) :
    (compareWith sel rel kind r a s).flag = true ↔
      rel kind (s.reg (sel kind r)) (s.memRead a) = true := by
  simp [compareWith_flag, hf]

/-- Two operand bytes, the low one first, are the address they give (R212). -/
theorem word16_eq_of_toNat {lo hi : Byte} {a : Addr} (ha : a.toNat = lo.toNat + 256 * hi.toNat) :
    word16 hi lo = a :=
  BitVec.eq_of_toNat_eq (by rw [word16_toNat, ha]; omega)

/-- A comparison under any parameters, at the address its operand bytes give (R480). -/
theorem execVariant_cmp (P : Params) (kind : CmpKind) (r : Reg) {lo hi : Byte} {a : Addr}
    (s : State) (ha : a.toNat = lo.toNat + 256 * hi.toNat) :
    execVariant P (.cmp kind r) lo hi s = .next (compareWith P.cmpSel P.cmpRel kind r a s) := by
  rw [execVariant, word16_eq_of_toNat ha]

/-! ### A sequence of comparisons (R486) -/

/-- Two changes of the condition flag alone are one. -/
theorem onlyFlag_trans {s t u : State} (hst : OnlyFlag s t) (htu : OnlyFlag t u) :
    OnlyFlag s u := by
  obtain ⟨hregs, hip, hmem, hhalted, hout, hlimit, hobs, htrace⟩ := hst
  obtain ⟨hregs', hip', hmem', hhalted', hout', hlimit', hobs', htrace'⟩ := htu
  exact ⟨fun q => (hregs' q).trans (hregs q), hip'.trans hip, fun a => (hmem' a).trans (hmem a),
    hhalted'.trans hhalted, hout'.trans hout, hlimit'.trans hlimit, hobs'.trans hobs,
    htrace'.trans htrace⟩

/-- The relation of a comparison holds in a state, under the machine's preset (R480, R481). -/
def CompareHolds (s : State) (c : CmpKind × Reg × Addr) : Prop :=
  presetRel cmpPreset c.1 (s.reg (presetSel cmpPreset c.1 c.2.1)) (s.memRead c.2.2) = true

/-- When a comparison under the machine's preset leaves F true (R480). -/
theorem compare_flag_iff (c : CmpKind × Reg × Addr) (s : State) :
    (compare c.1 c.2.1 c.2.2 s).flag = true ↔ s.flag = true ∨ CompareHolds s c :=
  compareWith_flag _ _ _ _ _ s

/-- No comparison reads F: whether one holds does not depend on the flag (R486). -/
theorem compareHolds_iff_of_onlyFlag {s t : State} (h : OnlyFlag s t) (c : CmpKind × Reg × Addr) :
    CompareHolds t c ↔ CompareHolds s c := by
  obtain ⟨hregs, -, hmem, -⟩ := h
  rw [CompareHolds, CompareHolds, hregs, hmem]

/-- The first comparison of a sequence runs, then the rest from the state it leaves (R486). -/
theorem execAll_cmp_cons (c : CmpKind × Reg × Addr) (cs : List (CmpKind × Reg × Addr)) (s : State) :
    execAll ((c :: cs).map fun c => Instr.cmp c.1 c.2.1 c.2.2) s =
      execAll (cs.map fun c => Instr.cmp c.1 c.2.1 c.2.2) (compare c.1 c.2.1 c.2.2 s) := by
  rw [List.map_cons, execAll, exec_cmp]

/-- A sequence of comparisons makes F true exactly if one of them holds in the state before it, and
changes nothing else (R486). -/
theorem execAll_cmp (cs : List (CmpKind × Reg × Addr)) (s : State) :
    ∃ t, execAll (cs.map fun c => Instr.cmp c.1 c.2.1 c.2.2) s = .next t ∧
      (t.flag = true ↔ s.flag = true ∨ ∃ c ∈ cs, CompareHolds s c) ∧ OnlyFlag s t := by
  induction cs generalizing s with
  | nil => exact ⟨s, rfl, by simp, onlyFlag_refl s⟩
  | cons c cs ih =>
    have honly : OnlyFlag s (compare c.1 c.2.1 c.2.2 s) := onlyFlag_compareWith _ _ _ _ _ s
    obtain ⟨t, hrun, hflag, hrest⟩ := ih (compare c.1 c.2.1 c.2.2 s)
    refine ⟨t, (execAll_cmp_cons c cs s).trans hrun, ?_, onlyFlag_trans honly hrest⟩
    simp only [hflag, compare_flag_iff, compareHolds_iff_of_onlyFlag honly,
      List.exists_mem_cons_iff, or_assoc]

/-! ### The obligations on comparisons -/

/-- Settles O20, by induction on the list: no comparison changes what a later one reads. -/
theorem comparisonsAccumulate : Obligations.ComparisonsAccumulate :=
  execAll_cmp

/-- Settles O46: each is `compare`, whose relation under the machine's preset is the unsigned one
and whose register is the named one. -/
theorem comparisonsSetTheFlag : Obligations.ComparisonsSetTheFlag := by
  intro r a s
  have hcmp (kind : CmpKind) : ∃ t, exec (Instr.cmp kind r a) s = .next t ∧ OnlyFlag s t ∧
      (t.flag = true ↔ s.flag = true ∨ presetRel .intended kind (s.reg r) (s.memRead a) = true) :=
    ⟨_, exec_cmp kind r a s, onlyFlag_compareWith _ _ _ _ _ s, compareWith_flag _ _ _ _ _ s⟩
  refine ⟨?_, ?_, ?_⟩
  · simpa only [presetRel_lt_iff] using hcmp .lt
  · simpa only [presetRel_gt_iff] using hcmp .gt
  · simpa only [presetRel_intended_eq_iff] using hcmp .eq

/-- Settles O47: the meaning of a comparison is `compareWith` at the address of its operand. -/
theorem comparisonFollowsItsParameters : Obligations.ComparisonFollowsItsParameters :=
  fun P kind r _ _ a s ha => ⟨_, execVariant_cmp P kind r s ha, onlyFlag_compareWith _ _ kind r a s,
    compareWith_flag _ _ kind r a s⟩

/-- Settles O48: from F false, F is the preset's relation between the register the preset selects
and the byte. -/
theorem observedPresetDiffersAsTheTableSays : Obligations.ObservedPresetDiffersAsTheTableSays := by
  intro r lo hi a s hf ha
  have hcmp (p : CmpPreset) (kind : CmpKind) :
      ∃ t, execVariant (baRefWith p) (.cmp kind r) lo hi s = .next t ∧
        (t.flag = true ↔ presetRel p kind (s.reg (presetSel p kind r)) (s.memRead a) = true) :=
    ⟨_, execVariant_cmp _ kind r s ha, compareWith_flag_of_not_flag hf _ _ kind r a⟩
  refine ⟨?_, ?_, ?_, ?_⟩
  · simpa only [presetRel_lt_iff, presetSel_observed_of_order (.inl rfl)] using hcmp .observed .lt
  · simpa only [presetRel_gt_iff, presetSel_observed_of_order (.inr rfl)] using hcmp .observed .gt
  · simpa only [presetRel_observed_eq_iff, presetSel_observed_eq] using hcmp .observed .eq
  · simpa only [presetRel_intended_eq_iff, presetSel, eq_comm (a := (s.memRead a).toNat)]
      using hcmp .intended .eq

end Sys2Proof.Machine
end

section
/-! SUPPORT. Register rotates (spec/45_rotate.md): where a rotate puts each bit, and that an
instruction changes nothing but its register. -/

namespace Sys2Proof.Machine

open Sys2Proof.Frame

/-! ### The rotates of a byte (R500) -/

/-- The model's left rotate is the library's (R500). -/
theorem rotl8_eq_rotateLeft (v : Byte) (n : Nat) : rotl8 v n = v.rotateLeft n :=
  BitVec.rotateLeft_def.symm

/-- The model's right rotate is the library's (R500). -/
theorem rotr8_eq_rotateRight (v : Byte) (n : Nat) : rotr8 v n = v.rotateRight n :=
  BitVec.rotateRight_def.symm

/-- A left rotate moves bit i to bit (i + n) mod 8: the bits that pass bit 7 re-enter at bit 0
(R500). -/
theorem getLsbD_rotl8 (v : Byte) (n : Nat) {i : Nat} (hi : i < 8) :
    (rotl8 v n).getLsbD ((i + n) % 8) = v.getLsbD i := by
  rw [rotl8_eq_rotateLeft, BitVec.getLsbD_rotateLeft]
  have hlt : (i + n) % 8 < 8 := Nat.mod_lt _ (by decide)
  by_cases hwrap : (i + n) % 8 < n % 8
  · have hfrom : 8 - n % 8 + (i + n) % 8 = i := by omega
    simp only [hwrap, decide_true, cond_true, hfrom]
  · have hfrom : (i + n) % 8 - n % 8 = i := by omega
    simp only [hwrap, hlt, decide_true, decide_false, cond_false, Bool.true_and, hfrom]

/-- A right rotate moves bit (i + n) mod 8 to bit i: the bits that pass bit 0 re-enter at bit 7
(R500). -/
theorem getLsbD_rotr8 (v : Byte) (n : Nat) {i : Nat} (hi : i < 8) :
    (rotr8 v n).getLsbD i = v.getLsbD ((i + n) % 8) := by
  rw [rotr8_eq_rotateRight, BitVec.getLsbD_rotateRight]
  by_cases hstay : i < 8 - n % 8
  · have hfrom : n % 8 + i = (i + n) % 8 := by omega
    simp only [hstay, decide_true, cond_true, hfrom]
  · have hfrom : i - (8 - n % 8) = (i + n) % 8 := by omega
    simp only [hstay, hi, decide_true, decide_false, cond_false, Bool.true_and, hfrom]

/-- A right rotate is the left rotate that completes its count to a multiple of 8 (R502). -/
theorem rotr8_eq_rotl8 (v : Byte) {n m : Nat} (h : (n + m) % 8 = 0) : rotr8 v n = rotl8 v m := by
  refine BitVec.eq_of_getLsbD_eq fun i hi => ?_
  have hback : ((i + n) % 8 + m) % 8 = i := by omega
  rw [getLsbD_rotr8 v n hi, ← getLsbD_rotl8 v m (Nat.mod_lt (i + n) (by decide)), hback]

/-- A right rotate brings every bit back to where a left rotate by the same count took it from
(R500). -/
theorem rotr8_rotl8 (v : Byte) (n : Nat) : rotr8 (rotl8 v n) n = v :=
  BitVec.eq_of_getLsbD_eq fun _ hi => (getLsbD_rotr8 _ n hi).trans (getLsbD_rotl8 v n hi)

/-- A right rotate by a multiple of 8 changes nothing (R500). -/
theorem rotr8_of_mod_eq_zero (v : Byte) {n : Nat} (h : n % 8 = 0) : rotr8 v n = v := by
  refine BitVec.eq_of_getLsbD_eq fun i hi => ?_
  have hsame : (i + n) % 8 = i := by omega
  rw [getLsbD_rotr8 v n hi, hsame]

/-- A left rotate by a multiple of 8 changes nothing: the right rotate that undoes it changes
nothing (R500). -/
theorem rotl8_of_mod_eq_zero (v : Byte) {n : Nat} (h : n % 8 = 0) : rotl8 v n = v :=
  (rotr8_of_mod_eq_zero (rotl8 v n) h).symm.trans (rotr8_rotl8 v n)

/-! ### The rotates of a register (R501, R502) -/

/-- After a rotate its register holds the rotated byte, the count taken as it stands in the operand
byte (R501, R502). -/
theorem rotate_reg (dir : RotDir) (r : Reg) (n : Byte) (s : State) :
    (rotate dir r n s).reg r = rotResult dir (s.reg r) n.toNat := by
  simp [rotate, shiftCount]

/-- A rotate changes nothing but its register, F included (R501, R502, R122). -/
theorem onlyReg_rotate (dir : RotDir) (r : Reg) (n : Byte) (s : State) :
    OnlyReg r s (rotate dir r n s) :=
  onlyReg_setReg s r (rotResult dir (s.reg r) (shiftCount n))

/-! ### The obligations on rotates -/

/-- Settles O49: the instruction is one register write of the rotated byte, whose bits are where
R500 says. -/
theorem rotatesMoveEveryBit : Obligations.RotatesMoveEveryBit := by
  refine fun r n s => ⟨⟨_, exec_rot .left r n s, onlyReg_rotate .left r n s, fun i hi => ?_⟩,
    ⟨_, exec_rot .right r n s, onlyReg_rotate .right r n s, fun i hi => ?_⟩⟩
  · rw [rotate_reg, rotResult, getLsbD_rotl8 _ _ hi]
  · rw [rotate_reg, rotResult, getLsbD_rotr8 _ _ hi]

/-- Settles O50: the two counts of the first clause add up to a multiple of 8, and the other
clauses are laws of the two rotates. -/
theorem rotateRightUndoesRotateLeft : Obligations.RotateRightUndoesRotateLeft :=
  fun v n => ⟨rotr8_eq_rotl8 v (by omega), rotr8_rotl8 v n,
    fun h => ⟨rotl8_of_mod_eq_zero v h, rotr8_of_mod_eq_zero v h⟩⟩

end Sys2Proof.Machine
end

section
/-! SUPPORT. Output and halt-attempt (spec/46_output_halt.md): OUT under each answer of the sink, what
a halt attempt can do, and the step at each one's bytes. -/

namespace Sys2Proof.Machine

open Sys2Proof.Frame

/-! ### Output -/

/-- OUT whose byte the sink accepts emits it (R520). -/
theorem output_of_accepts {s : State} (h : s.sinkAccepts = true) (a : Addr) :
    output a s = .next (s.emit (s.memRead a)) :=
  if_pos h

/-- OUT whose byte the sink rejects is the SinkFault with that byte and the state (R521). -/
theorem output_of_rejects {s : State} (h : s.sinkAccepts = false) (a : Addr) :
    output a s = .fault (.sinkFault (s.memRead a) s) :=
  if_neg (by simp [h])

/-- The sink rejects once it has reached its limit (R147). -/
theorem State.sinkAccepts_of_limit_reached {s : State} {n : Nat} (hlimit : s.sinkLimit = some n)
    (hn : n ≤ s.out.length) : s.sinkAccepts = false := by
  simpa [State.sinkAccepts, hlimit] using hn

/-- An emission appends its byte to the output and changes nothing else (R142). -/
theorem emit_keeps (b : Byte) (s : State) :
    (s.emit b).out = s.out ++ [b] ∧ RegsKept s (s.emit b) ∧ (s.emit b).ip = s.ip ∧
      MemKept s (s.emit b) ∧ FlagsKept s (s.emit b) ∧ (s.emit b).sinkLimit = s.sinkLimit ∧
      (s.emit b).observing = s.observing ∧ (s.emit b).trace = s.trace := by
  simp [RegsKept, MemKept, FlagsKept]

/-- The step of a Running machine at an OUT is the output past the instruction (R310, R520). -/
theorem step_out {s : State} {a : Addr} (hat : At3 s 0x0F a) :
    step s = complete 0x0F .out (output a (s.advance 3)) := by
  rw [step_at1 hat.1, ← word16_of_at3 hat]
  rfl

/-- The step of a Running machine at an OUT whose byte the sink accepts (R520). -/
theorem step_out_of_accepts {s : State} {a : Addr} (hat : At3 s 0x0F a)
    (hacc : s.sinkAccepts = true) :
    step s = .next (((s.advance 3).emit (s.memRead a)).observe 0x0F .out) := by
  rw [step_out hat, output_of_accepts (s := s.advance 3) hacc]
  rfl

/-- The step of a Running machine at an OUT whose byte the sink rejects (R521). -/
theorem step_out_of_rejects {s : State} {a : Addr} (hat : At3 s 0x0F a)
    (hrej : s.sinkAccepts = false) :
    step s = .fault (.sinkFault (s.memRead a) (s.advance 3)) := by
  rw [step_out hat, output_of_rejects (s := s.advance 3) hrej]
  rfl

/-- A run ends with the first step that ends in SinkFault, whatever is left of its ceiling (R740). -/
theorem runUpTo_of_sinkFault {s t : State} {b : Byte} (h : s.halted = false)
    (hs : step s = .fault (.sinkFault b t)) (m : Nat) : runUpTo (m + 1) s = ⟨.sinkFault, t⟩ := by
  simp [runUpTo, h, hs]

/-! ### The halt attempt -/

/-- A halt attempt always completes; it makes H true where the condition holds and changes nothing
else (R522). -/
theorem execHalt_effect (s : State) :
    ∃ t, execHalt s = .next t ∧ (t.halted = true ↔ s.halted = true ∨ AllOnesAndFlag s) ∧
      RegsKept s t ∧ t.ip = s.ip ∧ MemKept s t ∧ t.flag = s.flag ∧ PortsKept s t := by
  have hiff : haltCondition s = true ↔ AllOnesAndFlag s := haltCondition_iff s
  by_cases hc : haltCondition s = true
  · exact ⟨s.halt, congrArg Host.Outcome.next (if_pos hc),
      by simp [hiff.1 hc, RegsKept, MemKept, PortsKept]⟩
  · exact ⟨s, congrArg Host.Outcome.next (if_neg hc),
      by simp [mt hiff.2 hc, RegsKept, MemKept, PortsKept]⟩

/-- The step of a Running machine at a HALT is the attempt past the byte (R310, R522). -/
theorem step_halt {s : State} (hat : At1 s 0xFF) :
    step s = complete 0xFF .halt (execHalt (s.advance 1)) :=
  step_at1 hat

/-- When a completed meaning leaves H true: it was, or the meaning is HALT's and its condition holds
(R131, R522). -/
theorem execVariant_halted_iff {P : Params} {v : Variant} {lo hi : Byte} {s t : State}
    (h : execVariant P v lo hi s = .next t) :
    t.halted = true ↔ s.halted = true ∨ (v = .halt ∧ AllOnesAndFlag s) := by
  by_cases hv : v = .halt
  · subst hv
    obtain ⟨u, hu, hhalted, -⟩ := execHalt_effect s
    obtain rfl := Host.Outcome.next.inj (hu.symm.trans h)
    simpa using hhalted
  · have hkept : t.halted = s.halted := by
      by_contra hne
      exact hv (execVariant_halted h hne).1
    simp [hkept, hv]

/-! ### The obligations on output and halt -/

/-- Settles O28: a Running machine's step leaves H true exactly where its meaning is HALT's with the
condition satisfied, and an admissible opcode map binds HALT to 0xFF alone. -/
theorem onlyByteFFReachesHalted : Obligations.OnlyByteFFReachesHalted := by
  intro P hP s t h hs
  rw [paramStep_running P h, complete_eq_next] at hs
  obtain ⟨u, hu, rfl⟩ := hs
  rw [State.halted_observe, execVariant_halted_iff hu, hP.haltIsTopByte (s.memRead s.ip)]
  simp [h, AllOnesAndFlag]

/-- Settles O51: an accepted OUT is one emission, and the step is that emission past the
instruction. -/
theorem outEmitsTheByte : Obligations.OutEmitsTheByte := by
  refine ⟨fun a s hacc => ⟨_, output_of_accepts (s.sinkAccepts_iff.2 hacc) a, emit_keeps _ s⟩,
    fun a s hat hacc => ⟨_, step_out_of_accepts hat (s.sinkAccepts_iff.2 hacc), ?_⟩⟩
  simp [RegsKept, MemKept, FlagsKept]

/-- Settles O52: a sink at its limit rejects, so OUT is the SinkFault, the step is that fault past the
instruction, and the run ends with it. -/
theorem rejectedOutputIsASinkFault : Obligations.RejectedOutputIsASinkFault := by
  refine ⟨fun a s n hlimit hn => output_of_rejects (State.sinkAccepts_of_limit_reached hlimit hn) a,
    fun a s n m hat hlimit hn => ?_⟩
  have hstep := step_out_of_rejects hat (State.sinkAccepts_of_limit_reached hlimit hn)
  obtain ⟨⟨hrun, -⟩, -⟩ := hat
  exact ⟨hstep, runUpTo_of_sinkFault hrun hstep m⟩

/-- Settles O53: the instruction is the halt attempt, and the step is the attempt past the opcode byte
of a Running machine, whether it succeeds or not. -/
theorem haltNeedsAllOnesAndTheFlag : Obligations.HaltNeedsAllOnesAndTheFlag := by
  refine ⟨execHalt_effect, fun s hat => ?_⟩
  have hstep := step_halt hat
  obtain ⟨hrun, -⟩ := hat
  obtain ⟨u, hu, hhalted, hregs, hip, hmem, hflag, hout, hlimit, hobs, -⟩ :=
    execHalt_effect (s.advance 1)
  refine ⟨u.observe 0xFF .halt, by rw [hstep, hu]; rfl, ?_, by simpa using hip,
    fun q => by simpa using hregs q, fun a => by simpa using hmem a, by simpa using hflag,
    by simp [SinkKept, hout, hlimit, hobs]⟩
  simpa [hrun, AllOnesAndFlag] using hhalted

end Sys2Proof.Machine
end

section
/-! SUPPORT. The exceptions a step can end in (spec/60_exceptions.md R600, R603) and the two
constructions from bytes (spec/70_reset_and_hazards.md R700 to R702). -/

namespace Sys2Proof.Machine

/-! ### The outcomes of a step -/

/-- Settles O30: a Halted machine's step completes, and a Running one's is its variant's meaning on
the state past the instruction, which stops only at an OUT of three bytes that the sink rejects. -/
theorem stepCompletesUnlessTheSinkRejects : Obligations.StepCompletesUnlessTheSinkRejects := by
  intro s
  cases h : s.halted with
  | true => exact .inl ⟨s, step_halted h⟩
  | false =>
    obtain ⟨u, hu⟩ | ⟨hv, hrej, hfault⟩ := execVariant_cases baRef (variantOf (s.memRead s.ip))
      (s.memRead (s.ip + 1)) (s.memRead (s.ip + 2)) (s.advance (lengthOf (s.memRead s.ip)))
    · exact .inl ⟨_, (step_running_variant h).trans (complete_eq_next.2 ⟨u, hu, rfl⟩)⟩
    · have hlen : lengthOf (s.memRead s.ip) = 3 := by rw [lengthOf, formatOf, hv]; rfl
      refine .inr ⟨rfl, hv, hrej, _, word16_operand_toNat s, ?_⟩
      rw [step_running_variant h, hfault, hlen]
      rfl

/-! ### Construction from bytes -/

/-- A block of another length is no memory image (R702). -/
theorem constructImage_of_length_ne {image : List Byte} (h : image.length ≠ 65536) :
    constructImage image = none :=
  if_neg (by simpa [wellFormedImage] using h)

/-- A memory image becomes the memory of a machine that is otherwise as after reset (R702). -/
theorem constructImage_of_length_eq {image : List Byte} (h : image.length = 65536) :
    constructImage image = some { State.reset with mem := Memory.ofBytes 0 image } :=
  if_pos (by simpa [wellFormedImage] using h)

/-- The byte at an address of a memory made from a list (R702). -/
theorem Memory.some_read_ofBytes {bytes : List Byte} {a : Nat} (h : a < bytes.length) :
    some (Memory.read (Memory.ofBytes 0 bytes) a) = bytes[a]? := by
  have hread : Memory.read (Memory.ofBytes 0 bytes) a = bytes.getD a 0 := by
    simpa using Memory.read_ofBytes 0 a bytes
  simp [hread, h]

/-- Settles O15: the memory made from an image is canonical and reads as the image. -/
theorem imageConstructionLoadsEveryByte : Obligations.ImageConstructionLoadsEveryByte := by
  refine fun image => ⟨constructImage_of_length_ne, fun h =>
    ⟨_, constructImage_of_length_eq h, Memory.wf_ofBytes (by omega), fun a => ?_, rfl⟩⟩
  exact Memory.some_read_ofBytes (by omega)

/-- Settles O16: the first 65536 bytes drawn are an image, loaded as in O15; fewer are none. -/
theorem randomConstructionFillsInOrder : Obligations.RandomConstructionFillsInOrder := by
  intro draws
  obtain ⟨hshort, hlong⟩ := imageConstructionLoadsEveryByte (draws.take 65536)
  rw [List.length_take] at hshort hlong
  refine ⟨fun h => hshort (by omega), fun h => ?_⟩
  obtain ⟨s, hs, hinv, hread, hrest⟩ := hlong (by omega)
  exact ⟨s, hs, hinv, fun a => (hread a).trans (List.getElem?_take_of_lt a.isLt), hrest⟩

end Sys2Proof.Machine
end

section
/-! SUPPORT. How a run under a step ceiling ends (spec/70_reset_and_hazards.md R740;
spec/10_state.md R140, R146). -/

namespace Sys2Proof.Machine

/-! ### The run, by what its first step is -/

/-- A run from a Halted state ends there, under every ceiling (R740 (a)). -/
theorem runUpTo_of_halted {s : State} (h : s.halted = true) (n : Nat) :
    runUpTo n s = ⟨.halted, s⟩ := by
  cases n <;> simp [runUpTo, h]

/-- A run with no step left is Stopped in a Running state (R146). -/
theorem runUpTo_zero_of_running {s : State} (h : s.halted = false) :
    runUpTo 0 s = ⟨.stopped, s⟩ := by
  simp [runUpTo, h]

/-- A run goes on from the state after a completed step, with one step less. -/
theorem runUpTo_succ_of_next {s t : State} (h : s.halted = false) (hs : step s = .next t)
    (n : Nat) : runUpTo (n + 1) s = runUpTo n t := by
  simp [runUpTo, h, hs]

/-- The rest of a machine's steps after a completed one. -/
theorem run_succ_of_step_next (M : Host.Core) {s t : M.State} (h : M.step s = .next t) (n : Nat) :
    M.run (n + 1) s = M.run n t := by
  rw [Host.Core.run, h]

/-- Induction along a run: it starts Halted, has no step left, faults at its first step in a state
that is still Running, or completes its first step and goes on (O30: no step is refused). -/
theorem run_induction {p : Nat → State → Prop}
    (halted : ∀ n s, s.halted = true → p n s)
    (ceiling : ∀ s, s.halted = false → p 0 s)
    (fault : ∀ n s b t, s.halted = false → step s = .fault (.sinkFault b t) → t.halted = false →
      p (n + 1) s)
    (next : ∀ n s t, s.halted = false → step s = .next t → p n t → p (n + 1) s)
    (n : Nat) (s : State) : p n s := by
  induction n generalizing s with
  | zero =>
    cases h : s.halted with
    | true => exact halted 0 s h
    | false => exact ceiling s h
  | succ n ih =>
    cases h : s.halted with
    | true => exact halted (n + 1) s h
    | false =>
      obtain ⟨t, ht⟩ | ⟨-, -, -, a, -, hfault⟩ := stepCompletesUnlessTheSinkRejects s
      · exact next n s t h ht (ih t)
      · exact fault n s _ _ h hfault h

/-! ### The ends of a run -/

/-- A run ends Halted exactly if its final state is Halted (R740). -/
theorem runUpTo_kind_eq_halted_iff (n : Nat) (s : State) :
    (runUpTo n s).kind = .halted ↔ (runUpTo n s).final.halted = true := by
  induction n, s using run_induction with
  | halted n s h => simp [runUpTo_of_halted h, h]
  | ceiling s h => simp [runUpTo_zero_of_running h, h]
  | fault n s b t h hs ht => simp [runUpTo_of_sinkFault h hs, ht]
  | next n s t h hs ih => rwa [runUpTo_succ_of_next h hs]

/-- A run that the ceiling did not stop is the same under every higher ceiling (R740). -/
theorem runUpTo_add_of_not_stopped {n : Nat} {s : State} (hkind : (runUpTo n s).kind ≠ .stopped)
    (m : Nat) : runUpTo (n + m) s = runUpTo n s := by
  induction n, s using run_induction with
  | halted n s h => rw [runUpTo_of_halted h, runUpTo_of_halted h]
  | ceiling s h => simp [runUpTo_zero_of_running h] at hkind
  | fault n s b t h hs ht =>
    rw [Nat.add_right_comm, runUpTo_of_sinkFault h hs, runUpTo_of_sinkFault h hs]
  | next n s t h hs ih =>
    rw [runUpTo_succ_of_next h hs] at hkind
    rw [Nat.add_right_comm, runUpTo_succ_of_next h hs, runUpTo_succ_of_next h hs, ih hkind]

/-- A run that the ceiling stopped has completed as many steps as the ceiling (R146). -/
theorem core_run_of_stopped {n : Nat} {s : State} (hkind : (runUpTo n s).kind = .stopped) :
    Sys2Proof.core.run n s = .next (runUpTo n s).final := by
  induction n, s using run_induction with
  | halted n s h => simp [runUpTo_of_halted h] at hkind
  | ceiling s h => rw [runUpTo_zero_of_running h]; rfl
  | fault n s b t h hs ht => simp [runUpTo_of_sinkFault h hs] at hkind
  | next n s t h hs ih =>
    rw [runUpTo_succ_of_next h hs] at hkind ⊢
    exact (run_succ_of_step_next Sys2Proof.core hs n).trans (ih hkind)

/-- Settles O34, each part by induction along the run. -/
theorem runsEndInOneWay : Obligations.RunsEndInOneWay :=
  fun n s => ⟨runUpTo_kind_eq_halted_iff n s, runUpTo_add_of_not_stopped, core_run_of_stopped⟩

end Sys2Proof.Machine
end
